-- ==== Sys2Proof/Word.lean ====
section
/-! DEFINITION. The word types of `uvarint_core`, its three integer widths, the kinds of error it
reports, and the operand registers a command is given together. -/

namespace Sys2Proof

/-- One byte of a varint, and one element of the IN and OUT windows (R12, R22, R50). -/
abbrev Byte := BitVec 8

/-- A host register address: 6 bits, 0x00 to 0x3F (R31, R33). -/
abbrev Addr := BitVec 6

/-- The 128-bit host data path, and the 128-bit registers VAL_IN and VAL_OUT (R15, R21, R31). -/
abbrev Data := BitVec 128

/-- A window of `NWIN = 19` bytes (R7): IN and OUT. -/
abbrev Window := Vector Byte 19

/-- The integer width `W` a command selects: 32, 64 or 128 bits (R5, R56). -/
inductive Width
  | w32
  | w64
  | w128
  deriving DecidableEq, Repr

/-- The error kinds the block reports (R140). `WriteFailed` belongs to the stream adapter and is never
produced by the block (R4, R140), so it is no constructor. -/
inductive ErrorKind
  | incomplete
  | overflow
  | bufferTooSmall
  | illegalCommand
  deriving DecidableEq, Repr

/-- The input registers IN, INLEN, CAP and VAL_IN taken together: what the acceptance of a command
records (the snapshot `S` of R23 and R164). -/
structure Operands where
  IN     : Window
  INLEN  : BitVec 5
  CAP    : BitVec 5
  VAL_IN : Data
  deriving DecidableEq, Repr

end Sys2Proof
end

