-- ==== Sys2Proof/Config.lean ====
section
/-! DEFINITION. What the spec leaves to the implementation or to chance. Each is an opaque constant:
no proof can see its value, so what is proved holds for every value. -/

namespace Sys2Proof

/-- `draw()` for one byte (R9, U1; parameter `ENCI_FAIL_BYTES`, D11): the `n`-th free byte of a run.
DESIGN CHOICE (notes/assumptions/2.md): indexed by a counter that State holds. -/
opaque Config.drawByte : Nat → Byte

/-- `draw()` for one value on the host data path (R9; U2, U4, U8): the `n`-th free 128-bit value of a
run. DESIGN CHOICE (notes/assumptions/2.md). -/
opaque Config.drawWord : Nat → Data

/-- `CMD_LATENCY(c, S)` (R166, U6): the clock edges from acceptance to completion, a total function of
the command and its operands. Only the timed machine of Machine/Timed.lean can read it; the untimed
step does not depend on it (R167). -/
opaque Config.cmdLatency : Byte → Operands → Nat

/-- `UVARINT_BASE` (R41, U7): where the host port sits in a system's address map. No rule of the spec
depends on it, so no definition of the model reads it (notes/assumptions/8.md). -/
opaque Config.uvarintBase : Nat

end Sys2Proof
end

