-- ==== Sys2Proof/Syntax.lean ====
section
/-! DEFINITION. The instructions: one constructor for each row of spec/opcode_table.json, and the two
word formats they come in. -/

namespace Sys2Proof

/-- A register as the host addresses it (R33, R63). The machine never sees a raw address: `decodeAddr`
turns it into one of these. -/
inductive Reg
  | IN (k : Fin 19)
  | INLEN
  | CAP
  | VAL_IN
  | CMD
  | STATUS
  | COUNT
  | VAL_OUT
  | OUT (k : Fin 19)
  /-- A reserved address, 0x1A to 0x1F or 0x33 to 0x3F (R36). -/
  | reserved (a : Addr)
  deriving DecidableEq, Repr

/-- The rows of spec/opcode_table.json: the nine commands the block completes (R57) and the two host
accesses (R34, R35). A command carries no operand field (R54): its operands are registers. -/
inductive Instr
  | dec32
  | dec64
  | dec128
  | enc32
  | enc64
  | enc128
  | enci32
  | enci64
  | enci128
  /-- `HostWrite(a, d)`: the register and the 128-bit write data. -/
  | wr (r : Reg) (d : Data)
  /-- `HostRead(a)`. -/
  | rd (r : Reg)
  deriving DecidableEq, Repr

/-- A word as the machine meets it, one constructor for each format. The two formats live in different
places (the CMD register and the host port), so their bit patterns may overlap without ambiguity. -/
inductive Code
  /-- Format `CMD8` (R54): the byte of the pending command. -/
  | command (c : Byte)
  /-- The access word `A = WE :: ADDR` with the data presented beside it (R62). -/
  | access (a : BitVec 7) (d : Data)
  deriving DecidableEq, Repr

/-- Why a word does not decode. -/
inductive DecodeError
  /-- One of the 247 command values outside the command map (R58). -/
  | illegalCommand (c : Byte)
  deriving DecidableEq, Repr

end Sys2Proof
end

