-- ==== Sys2Proof/Machine/State.lean ====
section
/-! DEFINITION. The machine's state as plain data, the reasons a step can stop, and the state after
reset. The registers carry the spec's own names (R10). -/

namespace Sys2Proof.Machine

/-- An accepted command that has not completed: the command byte `c` and the snapshot `S` (R23). -/
structure PendingCmd where
  command  : Byte
  operands : Operands
  deriving DecidableEq, Repr

/-- What the host drives on the block's ports in one clock cycle (R31). `clk` is implicit: one of these
is one rising edge. -/
structure HostCycle where
  rst   : Bool
  req   : Bool
  we    : Bool
  addr  : Addr
  wdata : Data
  deriving DecidableEq, Repr

/-- One move of one of the two agents (R30). -/
inductive Move
  /-- The host's: one clock cycle, with or without an access, with or without reset (R32). -/
  | cycle (p : HostCycle)
  /-- The block's: it completes the pending command (R165, R167). -/
  | complete
  deriving DecidableEq, Repr

/-- The state. The first eleven fields are the complete architectural state of R10; the last three are
the model's own (notes/assumptions/1.md, 2.md, 3.md). -/
structure State where
  /-- Decoder input window (R12). -/
  IN       : Window
  /-- Bytes available in IN (R13). -/
  INLEN    : BitVec 5
  /-- Capacity of the in-place target buffer (R14). -/
  CAP      : BitVec 5
  /-- Encoder operand (R15). -/
  VAL_IN   : Data
  /-- Last value written to CMD (R16). -/
  LASTCMD  : Byte
  /-- STATUS[7] (R19). -/
  BUSY     : Bool
  /-- STATUS[2:0] (R18). -/
  RESULT   : BitVec 3
  /-- Bytes consumed or written (R20). -/
  COUNT    : BitVec 5
  /-- Decoder result (R21). -/
  VAL_OUT  : Data
  /-- Encoder output window (R22). -/
  OUT      : Window
  /-- The hidden in-flight command (R23). -/
  PENDING  : Option PendingCmd
  /-- The output port `h_rdata` (R31): what the last host cycle left on it. -/
  rdata    : Data
  /-- How many free values the run has drawn: the model's counter for `draw()`. -/
  draws    : Nat
  /-- The moves still to come, soonest first: the host's inputs, and where among them the block's
  completions land (R167: in any order). -/
  schedule : List Move
  deriving DecidableEq, Repr

/-- Why the machine stops. -/
inductive Fault
  /-- `HostWriteWhileBusy`, raised by `wr` when BUSY = 1 (hazard H1, R168, U3). The hardware's response
  is unspecified and the spec asks for this fault. Safe: the run has no successor and nothing is
  claimed about it. -/
  | hostWriteWhileBusy
  deriving DecidableEq, Repr

/-- Why the model gives an instruction no meaning. -/
inductive Refusal
  /-- Raised by an arm of `exec` for an instruction not modelled yet; no arm raises it now. Safe: the
  run has no successor. -/
  | notModelled (mnemonic : String)
  deriving DecidableEq, Repr

/-- The state after reset: every register at the value of R160 (R12 to R23). `rdata` and `draws` are the
model's own and start at zero, a DESIGN CHOICE (notes/assumptions/2.md, 3.md); no move is scheduled. -/
def State.reset : State where
  IN := Vector.replicate 19 0
  INLEN := 0
  CAP := 0
  VAL_IN := 0
  LASTCMD := 0
  BUSY := false
  RESULT := 0
  COUNT := 0
  VAL_OUT := 0
  OUT := Vector.replicate 19 0
  PENDING := none
  rdata := 0
  draws := 0
  schedule := []

end Sys2Proof.Machine
end

