-- ==== Sys2Proof/Machine/Flags.lean ====
section
/-! DEFINITION. STATUS: its result codes and its layout. The block has no other flags (R11). -/

namespace Sys2Proof.Machine

/-- Result code 0, NONE (R61). -/
def resultNone : BitVec 3 := 0

/-- Result code 1, OK (R61). -/
def resultOk : BitVec 3 := 1

/-- The result code of an error kind: 2 INCOMPLETE, 3 OVERFLOW, 4 BUFFER_TOO_SMALL, 5 ILLEGAL_COMMAND
(R61, R140). Codes 6 and 7 are never produced. -/
def errorCode : ErrorKind → BitVec 3
  | .incomplete => 2
  | .overflow => 3
  | .bufferTooSmall => 4
  | .illegalCommand => 5

/-- STATUS reads as `BUSY :: 0b0000 :: RESULT` (R17, R60). -/
def State.STATUS (s : State) : Byte := BitVec.ofBool s.BUSY ++ (0b0000#4 ++ s.RESULT)

end Sys2Proof.Machine
end

