-- ==== Sys2Proof/Machine/Primitives.lean ====
section
/-! DEFINITION. The continuation-flag logic and the 7-bit group extractor and combiner
(spec/40_primitives.md), on unbounded naturals where the spec says so (R8). -/

namespace Sys2Proof.Machine

/-- `W` in bits (R5). -/
def bits : Width → Nat
  | .w32 => 32
  | .w64 => 64
  | .w128 => 128

/-- `maxBytes(W) = ceil(W/7)`: 5, 10, 19 (R6). -/
def maxBytes (w : Width) : Nat := (bits w + 6) / 7

/-- `CONT(b)`: bit 7, "more bytes follow" (R70). -/
def cont (b : Byte) : Bool := b.getLsbD 7

/-- `MORE(v, i)`: is anything left above group `i` (R71)? -/
def more (v i : Nat) : Bool := (v >>> (7 * (i + 1))) != 0

/-- `DATA(b)`: the low 7 bits (R72). -/
def data (b : Byte) : BitVec 7 := b.setWidth 7

/-- `GROUP(v, i)`: bits [7i+6:7i] of the value (R73). -/
def group (v i : Nat) : BitVec 7 := BitVec.ofNat 7 (v >>> (7 * i))

/-- `MAKE_BYTE(g, c)`: the continuation bit above the data group (R74). -/
def makeByte (g : BitVec 7) (c : Bool) : Byte := BitVec.ofBool c ++ g

/-- `bit_length(v)`: 0 for 0, else one plus the index of the highest 1 bit (R75, general knowledge G2
of the spec: notes/assumptions/9.md). -/
def bitLength (v : Nat) : Nat := if v = 0 then 0 else v.log2 + 1

/-- `encLen(v) = max(1, ceil(bit_length(v)/7))` (R76). -/
def encLen (v : Nat) : Nat := max 1 ((bitLength v + 6) / 7)

/-- `COMBINE(W, acc, g, i)` (R77): the checked combiner, on the exact sum. -/
def combine (w : Width) (acc : Nat) (g : BitVec 7) (i : Nat) : Except ErrorKind Nat :=
  if bits w ≤ 7 * i then .error .overflow
  else if 2 ^ bits w - 1 < acc + (g.toNat <<< (7 * i)) then .error .overflow
  else .ok (acc + (g.toNat <<< (7 * i)))

/-- The decoder's scan from byte index `i` with accumulator `acc` over the bytes still available (the
loop of R90). Per byte, in this order: input available, overflow, termination. -/
def decodeScan (w : Width) : Nat → Nat → List Byte → Except ErrorKind (Nat × Nat)
  | _, _, [] => .error .incomplete
  | i, acc, b :: rest =>
    match combine w acc (data b) i with
    | .error e => .error e
    | .ok t => if cont b then decodeScan w (i + 1) t rest else .ok (i + 1, t)

/-- `DecodeCore` (R90) on a byte sequence: the scan looks at the first `maxBytes(W)` bytes at most, and
answers the bytes consumed and the value. -/
def decodeCore (w : Width) (input : List Byte) : Except ErrorKind (Nat × Nat) :=
  decodeScan w 0 0 (input.take (maxBytes w))

/-- The encoder's loop (R111): emit the low 7 bits, shift by 7, set the high bit while the shifted value
is non-zero. `fuel` bounds the passes. -/
def encodeLoop : Nat → Nat → List Byte
  | 0, _ => []
  | fuel + 1, x =>
    if x >>> 7 ≠ 0 then makeByte (group x 0) true :: encodeLoop fuel (x >>> 7)
    else [makeByte (group x 0) false]

/-- `EncodeCore` (R111): zero is the one byte 0x00; otherwise the loop, which runs at most
`maxBytes(W)` times on a W-bit value. -/
def encodeCore (w : Width) (v : Nat) : List Byte :=
  if v = 0 then [0x00] else encodeLoop (maxBytes w) v

end Sys2Proof.Machine
end

