-- ==== Sys2Proof/Machine/Operands.lean ====
section
/-! DEFINITION. The operands of a command. No command has an operand field (R54, R65): each reads input
registers, through the snapshot taken when the command was accepted (R23). -/

namespace Sys2Proof.Machine

/-- The live input registers, as an acceptance records them (R164). -/
def State.inputs (s : State) : Operands where
  IN := s.IN
  INLEN := s.INLEN
  CAP := s.CAP
  VAL_IN := s.VAL_IN

/-- The operands a completing command reads: the pending command's snapshot (R23, R165). With nothing
pending (a state in which the step completes no command), the live input registers.
DESIGN CHOICE (notes/assumptions/4.md). -/
def State.operands (s : State) : Operands :=
  match s.PENDING with
  | some p => p.operands
  | none => s.inputs

/-- A decode's input: the first INLEN bytes of IN; 19 and above give the whole window (R13, R90). -/
def inputBytes (S : Operands) : List Byte := S.IN.toList.take S.INLEN.toNat

/-- An encode's operand at width W: `VAL_IN[W-1:0]`; the bits above are ignored (R110). -/
def operandValue (w : Width) (S : Operands) : Nat := S.VAL_IN.toNat % 2 ^ bits w

end Sys2Proof.Machine
end

