-- ==== Sys2Proof/Machine/Ops.lean ====
section
/-! DEFINITION. The named operations over registers that the meanings are built from. The block has no
memory, no traps and no interrupts (R41, R147, R148): an error is a result code, recorded by
`State.fail`, and nothing is entered or returned from. -/

namespace Sys2Proof.Machine

/-- Write the bytes of `bs` to a window from index `k` on; there is nothing past index 18. -/
def overwriteFrom (win : Window) : Nat → List Byte → Window
  | _, [] => win
  | k, b :: rest => overwriteFrom (win.setIfInBounds k b) (k + 1) rest

/-- Write the bytes of `bs` to a window from offset 0, leaving the rest (R112, R117). -/
def overwrite (win : Window) (bs : List Byte) : Window := overwriteFrom win 0 bs

/-- Leave `rest` as the moves still to come. -/
def State.setSchedule (rest : List Move) (s : State) : State := { s with schedule := rest }

/-- Drive a value on `h_rdata` (R31). -/
def State.drive (v : Data) (s : State) : State := { s with rdata := v }

/-- Leave `h_rdata` unspecified: a fresh free value (U2, U4, U8). -/
def State.driveUnspecified (s : State) : State :=
  { s with rdata := Config.drawWord s.draws, draws := s.draws + 1 }

/-- `HostRead` (R35), the value of a register zero-extended to 128 bits; reserved addresses read 0
(R36). -/
def State.readReg (s : State) : Reg → Data
  | .IN k => s.IN[k].setWidth 128
  | .INLEN => s.INLEN.setWidth 128
  | .CAP => s.CAP.setWidth 128
  | .VAL_IN => s.VAL_IN
  | .CMD => s.LASTCMD.setWidth 128
  | .STATUS => s.STATUS.setWidth 128
  | .COUNT => s.COUNT.setWidth 128
  | .VAL_OUT => s.VAL_OUT
  | .OUT k => s.OUT[k].setWidth 128
  | .reserved _ => 0

/-- The registers whose value is unspecified while BUSY = 1: COUNT, VAL_OUT and OUT (hazard H2, R169). -/
def isResultReg : Reg → Bool
  | .COUNT => true
  | .VAL_OUT => true
  | .OUT _ => true
  | .IN _ => false
  | .INLEN => false
  | .CAP => false
  | .VAL_IN => false
  | .CMD => false
  | .STATUS => false
  | .reserved _ => false

/-- `Issue(c)` (R164): the acceptance of a command. -/
def State.issue (c : Byte) (s : State) : State :=
  { s with
    LASTCMD := c
    PENDING := some { command := c, operands := s.inputs }
    BUSY := true
    RESULT := resultNone }

/-- `HostWrite` (R34): truncate to the register's width; a write to CMD issues a command; read-only
registers and reserved addresses ignore the write (R36). -/
def State.writeReg (r : Reg) (d : Data) (s : State) : State :=
  match r with
  | .IN k => { s with IN := s.IN.set k.val (d.setWidth 8) k.isLt }
  | .INLEN => { s with INLEN := d.setWidth 5 }
  | .CAP => { s with CAP := d.setWidth 5 }
  | .VAL_IN => { s with VAL_IN := d }
  | .CMD => s.issue (d.setWidth 8)
  | .STATUS => s
  | .COUNT => s
  | .VAL_OUT => s
  | .OUT _ => s
  | .reserved _ => s

/-- The end of every command: BUSY and PENDING clear (R165). -/
def State.retire (s : State) : State := { s with BUSY := false, PENDING := none }

/-- Record an error: its code goes to RESULT and nothing else is written (R141 to R145). -/
def State.fail (e : ErrorKind) (s : State) : State := { s with RESULT := errorCode e }

/-- Record a decode's success: VAL_OUT, COUNT and RESULT (R91). -/
def State.decoded (count value : Nat) (s : State) : State :=
  { s with
    VAL_OUT := BitVec.ofNat 128 value
    COUNT := BitVec.ofNat 5 count
    RESULT := resultOk }

/-- Record an encode's success: the bytes in OUT from offset 0, COUNT and RESULT (R112). -/
def State.encoded (e : List Byte) (s : State) : State :=
  { s with
    OUT := overwrite s.OUT e
    COUNT := BitVec.ofNat 5 e.length
    RESULT := resultOk }

/-- `n` independent free bytes, the next ones of the run (R117, U1). -/
def drawBytes (s : State) (n : Nat) : List Byte :=
  (List.range n).map fun k => Config.drawByte (s.draws + k)

/-- The first `n` bytes of OUT become unspecified (R117). -/
def State.scrambleOut (n : Nat) (s : State) : State :=
  { s with OUT := overwrite s.OUT (drawBytes s n), draws := s.draws + n }

/-- `DecodeCommit(W, S)` (R91). -/
def decodeCommit (w : Width) (S : Operands) (s : State) : State :=
  match decodeCore w (inputBytes S) with
  | .ok (count, value) => s.decoded count value
  | .error e => s.fail e

/-- `EncodeCommit(W, S)`, the allocating form (R112). -/
def encodeCommit (w : Width) (S : Operands) (s : State) : State :=
  s.encoded (encodeCore w (operandValue w S))

/-- `EncodeIntoCommit(W, S)`, the in-place form (R117): the capacity check of R116, then the same bytes
as the allocating form, or BUFFER_TOO_SMALL with the buffer's bytes unspecified. -/
def encodeIntoCommit (w : Width) (S : Operands) (s : State) : State :=
  if (encodeCore w (operandValue w S)).length ≤ S.CAP.toNat then
    s.encoded (encodeCore w (operandValue w S))
  else (s.scrambleOut S.CAP.toNat).fail .bufferTooSmall

/-- An illegal command's completion (R144). -/
def illegalCommit (s : State) : State := s.fail .illegalCommand

/-- A rising edge with `rst` = 1 (R160, R161, R163): every register takes its reset value, a pending
command is discarded, an access presented in the cycle does nothing, and read data is unspecified.
The moves still to come are the environment's and stay. -/
def resetEdge (s : State) : State :=
  { State.reset with
    rdata := Config.drawWord s.draws
    draws := s.draws + 1
    schedule := s.schedule }

end Sys2Proof.Machine
end

