-- ==== Sys2Proof/Machine/Decoder.lean ====
section
/-! DEFINITION. The decode commands (spec/41_decode.md): what each does when the block completes it. -/

namespace Sys2Proof.Machine

/-- `DEC32` (R92). -/
def execDec32 (s : State) : Host.Outcome State Fault Refusal :=
  .next (decodeCommit .w32 s.operands s).retire

/-- `DEC64` (R93). -/
def execDec64 (s : State) : Host.Outcome State Fault Refusal :=
  .next (decodeCommit .w64 s.operands s).retire

/-- `DEC128` (R94). -/
def execDec128 (s : State) : Host.Outcome State Fault Refusal :=
  .next (decodeCommit .w128 s.operands s).retire

end Sys2Proof.Machine
end

