-- ==== Sys2Proof/Machine/Encoder.lean ====
section
/-! DEFINITION. The encode commands, allocating form and in-place form (spec/42_encode.md): what each
does when the block completes it. -/

namespace Sys2Proof.Machine

/-- `ENC32` (R113). -/
def execEnc32 (s : State) : Host.Outcome State Fault Refusal :=
  .next (encodeCommit .w32 s.operands s).retire

/-- `ENC64` (R114). -/
def execEnc64 (s : State) : Host.Outcome State Fault Refusal :=
  .next (encodeCommit .w64 s.operands s).retire

/-- `ENC128` (R115). -/
def execEnc128 (s : State) : Host.Outcome State Fault Refusal :=
  .next (encodeCommit .w128 s.operands s).retire

/-- `ENCI32` (R118). -/
def execEnci32 (s : State) : Host.Outcome State Fault Refusal :=
  .next (encodeIntoCommit .w32 s.operands s).retire

/-- `ENCI64` (R119). -/
def execEnci64 (s : State) : Host.Outcome State Fault Refusal :=
  .next (encodeIntoCommit .w64 s.operands s).retire

/-- `ENCI128` (R120). -/
def execEnci128 (s : State) : Host.Outcome State Fault Refusal :=
  .next (encodeIntoCommit .w128 s.operands s).retire

end Sys2Proof.Machine
end

