-- ==== Sys2Proof/Machine/HostPort.lean ====
section
/-! DEFINITION. The two host accesses (spec/20_memory.md) and the hazards of a busy block
(spec/70_reset_and_hazards.md). -/

namespace Sys2Proof.Machine

/-- `wr`, `HostWrite(a, d)` (R34). While BUSY = 1 every write, to whatever address, is hazard H1, for
which the spec names this fault (R168). A cycle without a read leaves `h_rdata` unspecified (R31). -/
def execWr (r : Reg) (d : Data) (s : State) : Host.Outcome State Fault Refusal :=
  if s.BUSY then .fault .hostWriteWhileBusy
  else .next (s.writeReg r d).driveUnspecified

/-- `rd`, `HostRead(a)` (R35): only `h_rdata` changes. While BUSY = 1, COUNT, VAL_OUT and OUT read as a
free value (hazard H2, R169). -/
def execRd (r : Reg) (s : State) : Host.Outcome State Fault Refusal :=
  if s.BUSY && isResultReg r then .next s.driveUnspecified
  else .next (s.drive (s.readReg r))

end Sys2Proof.Machine
end

