-- ==== Sys2Proof/Machine/Dispatch.lean ====
section
/-! DEFINITION. One arm per instruction. -/

namespace Sys2Proof.Machine

def exec (i : Instr) (s : State) : Host.Outcome State Fault Refusal :=
  match i with
  | .dec32 => Sys2Proof.Machine.execDec32 s
  | .dec64 => Sys2Proof.Machine.execDec64 s
  | .dec128 => Sys2Proof.Machine.execDec128 s
  | .enc32 => Sys2Proof.Machine.execEnc32 s
  | .enc64 => Sys2Proof.Machine.execEnc64 s
  | .enc128 => Sys2Proof.Machine.execEnc128 s
  | .enci32 => Sys2Proof.Machine.execEnci32 s
  | .enci64 => Sys2Proof.Machine.execEnci64 s
  | .enci128 => Sys2Proof.Machine.execEnci128 s
  | .wr r d => Sys2Proof.Machine.execWr r d s
  | .rd r => Sys2Proof.Machine.execRd r s

end Sys2Proof.Machine
end

