-- ==== Sys2Proof/WellFormed.lean ====
section
/-! DEFINITION. Which instructions stand for words. The widths of operands are in their types, so the
one check left is that `reserved` names a reserved address (R36). -/

namespace Sys2Proof

/-- Is `a` one of the reserved addresses 0x1A to 0x1F and 0x33 to 0x3F (R33, R36)? -/
def reservedAddr (a : Addr) : Bool :=
  (0x1A ≤ a.toNat && a.toNat ≤ 0x1F) || 0x33 ≤ a.toNat

/-- A register operand is well formed unless it is `reserved` at an address that has a register. -/
def Reg.WellFormed : Reg → Bool
  | .IN _ => true
  | .INLEN => true
  | .CAP => true
  | .VAL_IN => true
  | .CMD => true
  | .STATUS => true
  | .COUNT => true
  | .VAL_OUT => true
  | .OUT _ => true
  | .reserved a => reservedAddr a

/-- An instruction is well formed when its register operand is; the commands have none (R54). -/
def Instr.WellFormed : Instr → Bool
  | .dec32 => true
  | .dec64 => true
  | .dec128 => true
  | .enc32 => true
  | .enc64 => true
  | .enc128 => true
  | .enci32 => true
  | .enci64 => true
  | .enci128 => true
  | .wr r _ => r.WellFormed
  | .rd r => r.WellFormed

end Sys2Proof
end

