-- ==== Sys2Proof/Decode.lean ====
section
/-! DEFINITION. The decoder, total on every word, and after it the encoder. -/

namespace Sys2Proof

/-- Field `OP`, bits [1:0] of a command (R54). -/
def opField (c : Byte) : BitVec 2 := c.extractLsb' 0 2

/-- Field `WSEL`, bits [3:2] of a command (R54). -/
def wselField (c : Byte) : BitVec 2 := c.extractLsb' 2 2

/-- Field `RSV`, bits [7:4] of a command (R54). -/
def rsvField (c : Byte) : BitVec 4 := c.extractLsb' 4 4

/-- `DecodeCmd` (R57): total on every byte; the 247 values of R58 are rejected by name. `OP` and `WSEL`
are read as in R55 and R56. -/
def decodeCommand (c : Byte) : Except DecodeError Instr :=
  if rsvField c ≠ 0b0000#4 then .error (.illegalCommand c)
  else
    match (opField c).toNat, (wselField c).toNat with
    | 0, 0 => .ok .dec32
    | 0, 1 => .ok .dec64
    | 0, 2 => .ok .dec128
    | 1, 0 => .ok .enc32
    | 1, 1 => .ok .enc64
    | 1, 2 => .ok .enc128
    | 2, 0 => .ok .enci32
    | 2, 1 => .ok .enci64
    | 2, 2 => .ok .enci128
    | _, _ => .error (.illegalCommand c)

/-- The register map (R33): every one of the 64 addresses. A window index is the address minus the
window's base, 0x00 for IN and 0x20 for OUT. -/
def decodeAddr (a : Addr) : Reg :=
  if h : a.toNat < 19 then .IN ⟨a.toNat, h⟩
  else if a.toNat = 0x13 then .INLEN
  else if a.toNat = 0x14 then .CAP
  else if a.toNat = 0x15 then .VAL_IN
  else if a.toNat = 0x16 then .CMD
  else if a.toNat = 0x17 then .STATUS
  else if a.toNat = 0x18 then .COUNT
  else if a.toNat = 0x19 then .VAL_OUT
  else if h : 0x20 ≤ a.toNat ∧ a.toNat - 0x20 < 19 then .OUT ⟨a.toNat - 0x20, h.2⟩
  else .reserved a

/-- The access word (R62): bit 6 is WE, bits 5 to 0 are ADDR. Every access word decodes. The data is a
write's; a read ignores what the port presents beside it. -/
def decodeAccess (a : BitVec 7) (d : Data) : Instr :=
  if a.getLsbD 6 then .wr (decodeAddr (a.setWidth 6)) d else .rd (decodeAddr (a.setWidth 6))

/-- The decoder. -/
def decode : Code → Except DecodeError Instr
  | .command c => decodeCommand c
  | .access a d => .ok (decodeAccess a d)

/-- The address of a register (R33). -/
def encodeAddr : Reg → Addr
  | .IN k => BitVec.ofNat 6 k.val
  | .INLEN => 0x13
  | .CAP => 0x14
  | .VAL_IN => 0x15
  | .CMD => 0x16
  | .STATUS => 0x17
  | .COUNT => 0x18
  | .VAL_OUT => 0x19
  | .OUT k => BitVec.ofNat 6 (0x20 + k.val)
  | .reserved a => a

/-- The encoder, from the command map (R57) and the access word (R62). A read carries no data: zero. -/
def encode : Instr → Code
  | .dec32 => .command 0x00
  | .dec64 => .command 0x04
  | .dec128 => .command 0x08
  | .enc32 => .command 0x01
  | .enc64 => .command 0x05
  | .enc128 => .command 0x09
  | .enci32 => .command 0x02
  | .enci64 => .command 0x06
  | .enci128 => .command 0x0A
  | .wr r d => .access (1#1 ++ encodeAddr r) d
  | .rd r => .access (0#1 ++ encodeAddr r) 0

/-- Which format a bare table word is taken in. The table's rows give two formats whose words overlap:
a legal command byte is taken as a command; any other byte with bit 7 clear, and every word given with
7 bits, as an access word; the rest as an (illegal) command. DESIGN CHOICE (notes/assumptions/5.md). The
table gives a write's data no bits, so the data is zero. -/
def tableCode (nbits w : Nat) : Code :=
  if nbits = 7 then .access (BitVec.ofNat 7 w) 0
  else
    match decodeCommand (BitVec.ofNat 8 w) with
    | .ok _ => .command (BitVec.ofNat 8 w)
    | .error _ =>
      if (BitVec.ofNat 8 w).getLsbD 7 then .command (BitVec.ofNat 8 w)
      else .access (BitVec.ofNat 7 w) 0

/-- The instruction the decoder reads from a word of spec/opcode_table.json. -/
def decodeTableWord (nbits w : Nat) : Option Instr :=
  match decode (tableCode nbits w) with
  | .ok i => some i
  | .error _ => none

end Sys2Proof
end

