-- ==== Sys2Proof/Machine/Fetch.lean ====
section
/-! DEFINITION. Which agent moves next, and what it does: the block completes its pending command, or
the host presents a clock cycle. There is no program counter and no instruction memory (R11, R46). -/

namespace Sys2Proof.Machine

/-- What a move comes to: an instruction to run at a state, or a state reached without one. -/
inductive Fetched
  | run (i : Instr) (s : State)
  | done (s : State)
  deriving DecidableEq, Repr

/-- The block's move (R165): decode the pending command; a legal one runs, an illegal one completes with
ILLEGAL_COMMAND (R144). With nothing pending the move is not enabled (R167) and nothing happens. -/
def completeMove (s : State) : Fetched :=
  match s.PENDING with
  | none => .done s
  | some p =>
    match decode (.command p.command) with
    | .ok i => .run i s
    | .error _ => .done (illegalCommit s).retire

/-- The access word on the ports, `WE :: ADDR` (R31, R62). -/
def accessWord (p : HostCycle) : BitVec 7 := BitVec.ofBool p.we ++ p.addr

/-- The host's move, one clock cycle (R31, R32): reset overrides (R160, R163); an access runs; a cycle
without an access changes nothing and leaves `h_rdata` unspecified. -/
def hostMove (p : HostCycle) (s : State) : Fetched :=
  if p.rst then .done (resetEdge s)
  else if p.req then .run (decodeAccess (accessWord p) p.wdata) s
  else .done s.driveUnspecified

/-- Take the next scheduled move. When none is scheduled the host presents nothing more: the block
completes what is pending (weak fairness, R167), else it is idle (R154).
DESIGN CHOICE (notes/assumptions/1.md). -/
def fetch (s : State) : Fetched :=
  match s.schedule with
  | .cycle p :: rest => hostMove p (s.setSchedule rest)
  | .complete :: rest => completeMove (s.setSchedule rest)
  | [] => if s.PENDING.isSome then completeMove s else .done s.driveUnspecified

end Sys2Proof.Machine
end

