-- ==== Sys2Proof/Machine/Step.lean ====
section
/-! DEFINITION. One step of the machine: one move of one agent. -/

namespace Sys2Proof.Machine

/-- One step: the next move of the schedule (R30, R167). -/
def step (s : State) : Host.Outcome State Fault Refusal :=
  match fetch s with
  | .run i t => exec i t
  | .done t => .next t

/-- Put a table word where the next step takes its instruction. A command: accepted as an idle host
write to CMD accepts it (R164), with its completion as the next move. An access: the host's next clock
cycle presents it. See notes/assumptions/5.md and 6.md. -/
def State.withFetchWord (s : State) (nbits w : Nat) : State :=
  match tableCode nbits w with
  | .command c => { s.issue c with schedule := .complete :: s.schedule }
  | .access a d =>
    { s with
      schedule :=
        .cycle { rst := false, req := true, we := a.getLsbD 6, addr := a.setWidth 6, wdata := d }
          :: s.schedule }

end Sys2Proof.Machine
end

