-- ==== Sys2Proof/Machine/Assembler.lean ====
section
/-! DEFINITION. The pseudo-instructions of host programs (R64) and the host accesses they stand for. The
host's own control flow (loops, variables: R63) is the host's, not the block's. -/

namespace Sys2Proof.Machine

/-- The pseudo-instructions (R64). -/
inductive Pseudo
  | dec32
  | dec64
  | dec128
  | enc32
  | enc64
  | enc128
  | enci32
  | enci64
  | enci128
  | wait
  | loadIn (bytes : List Byte)
  deriving DecidableEq, Repr

/-- `load_in` takes at most the 19 bytes of the window (R64). -/
def pseudoWellFormed : Pseudo → Bool
  | .dec32 => true
  | .dec64 => true
  | .dec128 => true
  | .enc32 => true
  | .enc64 => true
  | .enc128 => true
  | .enci32 => true
  | .enci64 => true
  | .enci128 => true
  | .wait => true
  | .loadIn bytes => bytes.length ≤ 19

/-- `wr IN(k), b` for the bytes in order, from window index `k` (R64). -/
def loadFrom : Nat → List Byte → List Instr
  | _, [] => []
  | k, b :: rest => .wr (decodeAddr (BitVec.ofNat 6 k)) (b.setWidth 128) :: loadFrom (k + 1) rest

/-- The accesses of a pseudo-instruction (R64). `wait` is one poll of STATUS; the host repeats it while
`mustWait` holds of the value read. -/
def expand : Pseudo → List Instr
  | .dec32 => [.wr .CMD 0x00]
  | .dec64 => [.wr .CMD 0x04]
  | .dec128 => [.wr .CMD 0x08]
  | .enc32 => [.wr .CMD 0x01]
  | .enc64 => [.wr .CMD 0x05]
  | .enc128 => [.wr .CMD 0x09]
  | .enci32 => [.wr .CMD 0x02]
  | .enci64 => [.wr .CMD 0x06]
  | .enci128 => [.wr .CMD 0x0A]
  | .wait => [.rd .STATUS]
  | .loadIn bytes => loadFrom 0 bytes ++ [.wr .INLEN (BitVec.ofNat 128 bytes.length)]

/-- The loop condition of `wait`: `STATUS[7] == 1` (R64). -/
def mustWait (status : Data) : Bool := status.getLsbD 7

/-- The accesses of a list in order, one per cycle, stopping at the first fault (R32, R43). -/
def runAccesses : List Instr → State → Host.Outcome State Fault Refusal
  | [], s => .next s
  | i :: is, s =>
    match exec i s with
    | .next t => runAccesses is t
    | .fault f => .fault f
    | .refused r => .refused r

end Sys2Proof.Machine
end

