-- ==== Sys2Proof/Machine/Timed.lean ====
section
/-! DEFINITION. The block with its clock (R31, R165, R166): the same machine, one rising edge at a time,
with CMD_LATENCY as an argument. The untimed step admits every run of this one (R167). -/

namespace Sys2Proof.Machine

/-- The machine and how many clock edges have passed since the pending command was accepted. -/
structure TimedState where
  core    : State
  elapsed : Nat
  deriving DecidableEq, Repr

/-- After the host's part of an edge: complete the pending command if its latency has passed, else keep
counting (R165). -/
def completeIfDue (lat : Byte → Operands → Nat) (elapsed : Nat) (s : State) :
    Host.Outcome TimedState Fault Refusal :=
  match s.PENDING with
  | none => .next { core := s, elapsed := 0 }
  | some p =>
    if lat p.command p.operands ≤ elapsed then
      match step (s.setSchedule [.complete]) with
      | .next t => .next { core := t, elapsed := 0 }
      | .fault f => .fault f
      | .refused r => .refused r
    else .next { core := s, elapsed := elapsed }

/-- One rising edge of `clk`. An access at the completion edge sees none of the command's effects (R43
item 3), so the host's part comes first. A command accepted at this edge has 0 edges behind it; with
latency 0 it completes here (R165). -/
def clockEdge (lat : Byte → Operands → Nat) (p : HostCycle) (t : TimedState) :
    Host.Outcome TimedState Fault Refusal :=
  match step (t.core.setSchedule [.cycle p]) with
  | .next s => completeIfDue lat (if t.core.PENDING.isSome then t.elapsed + 1 else 0) s
  | .fault f => .fault f
  | .refused r => .refused r

/-- The edges of a list of clock cycles, in order. -/
def clockEdges (lat : Byte → Operands → Nat) :
    List HostCycle → TimedState → Host.Outcome TimedState Fault Refusal
  | [], t => .next t
  | p :: ps, t =>
    match clockEdge lat p t with
    | .next u => clockEdges lat ps u
    | .fault f => .fault f
    | .refused r => .refused r

/-- The edge of this implementation, at its own latency (R166). -/
def timedStep (p : HostCycle) (t : TimedState) : Host.Outcome TimedState Fault Refusal :=
  clockEdge Config.cmdLatency p t

end Sys2Proof.Machine
end

