-- ==== Sys2Proof/Safety.lean ====
section
/-! DEFINITION. The vocabulary of the claims: the machine's invariant, what a well-formed varint is, and
what the encoder emits, each written from the spec and not from the meanings. -/

namespace Sys2Proof.Machine

/-- The decode command of a width (R57). -/
def decOf : Width → Instr
  | .w32 => .dec32
  | .w64 => .dec64
  | .w128 => .dec128

/-- The allocating encode command of a width (R57). -/
def encOf : Width → Instr
  | .w32 => .enc32
  | .w64 => .enc64
  | .w128 => .enc128

/-- The in-place encode command of a width (R57). -/
def enciOf : Width → Instr
  | .w32 => .enci32
  | .w64 => .enci64
  | .w128 => .enci128

/-- Is the instruction a host access, not a command? -/
def isAccess : Instr → Bool
  | .dec32 => false
  | .dec64 => false
  | .dec128 => false
  | .enc32 => false
  | .enc64 => false
  | .enc128 => false
  | .enci32 => false
  | .enci64 => false
  | .enci128 => false
  | .wr _ _ => true
  | .rd _ => true

/-- The nine legal command values (R57). -/
def legalCommands : List Byte := [0x00, 0x04, 0x08, 0x01, 0x05, 0x09, 0x02, 0x06, 0x0A]

/-- The least data group that overflows at the last byte: 16, 2, 4 (R142). -/
def lastLim : Width → Nat
  | .w32 => 16
  | .w64 => 2
  | .w128 => 4

/-- The value of a byte sequence: the sum of `(b & 0x7F) << 7i` over its bytes (R51). -/
def varintValue (bs : List Byte) : Nat :=
  (bs.mapIdx fun i b => b.toNat % 128 * 2 ^ (7 * i)).sum

/-- A well-formed varint for width W (R52): 1 to `maxBytes(W)` bytes, bit 7 set in every byte but the
last and clear in the last, and a value of at most `2^W - 1`. -/
def WellFormedVarint (w : Width) (bs : List Byte) : Prop :=
  1 ≤ bs.length ∧ bs.length ≤ maxBytes w ∧
  (∀ (i : Nat) (h : i < bs.length), bs[i].getLsbD 7 = decide (i + 1 < bs.length)) ∧
  varintValue bs ≤ 2 ^ bits w - 1

/-- A varint is minimal when it has one byte, or its last byte is not 0x00 (R53). -/
def Minimal (bs : List Byte) : Prop := bs.length = 1 ∨ bs.getLast? ≠ some 0x00

/-- The encoder's algorithm as a relation (R111): zero is one 0x00 byte; otherwise the low 7 bits are
emitted, with bit 7 set exactly when the value shifted right by 7 is still non-zero. -/
inductive Emits : Nat → List Byte → Prop
  | zero : Emits 0 [0x00]
  | last (x : Nat) : x ≠ 0 → x / 128 = 0 → Emits x [BitVec.ofNat 8 (x % 128)]
  | more (x : Nat) (rest : List Byte) :
      x / 128 ≠ 0 → Emits (x / 128) rest → Emits x (BitVec.ofNat 8 (x % 128 + 128) :: rest)

/-- The decoder's loop as a relation (R90, with R77's combiner): `Scans w input n i acc r` says that from
byte index `i` with accumulator `acc` the scan ends with `r`, the checks in the order input available,
overflow, termination. -/
inductive Scans (w : Width) (input : Window) (n : Nat) :
    Nat → Nat → Except ErrorKind (Nat × Nat) → Prop
  | exhausted (i acc : Nat) : min n (maxBytes w) ≤ i → Scans w input n i acc (.error .incomplete)
  | overflow (i acc : Nat) (h : i < 19) : i < min n (maxBytes w) →
      (bits w ≤ 7 * i ∨ 2 ^ bits w - 1 < acc + input[i].toNat % 128 * 2 ^ (7 * i)) →
      Scans w input n i acc (.error .overflow)
  | done (i acc : Nat) (h : i < 19) : i < min n (maxBytes w) → 7 * i < bits w →
      acc + input[i].toNat % 128 * 2 ^ (7 * i) ≤ 2 ^ bits w - 1 → input[i].getLsbD 7 = false →
      Scans w input n i acc (.ok (i + 1, acc + input[i].toNat % 128 * 2 ^ (7 * i)))
  | more (i acc : Nat) (h : i < 19) (r : Except ErrorKind (Nat × Nat)) :
      i < min n (maxBytes w) → 7 * i < bits w →
      acc + input[i].toNat % 128 * 2 ^ (7 * i) ≤ 2 ^ bits w - 1 → input[i].getLsbD 7 = true →
      Scans w input n (i + 1) (acc + input[i].toNat % 128 * 2 ^ (7 * i)) r →
      Scans w input n i acc r

/-- The condition of OVERFLOW (R142): the byte at index `maxBytes(W) - 1` is examined and its data group
is at least 16, 2 or 4. -/
def OverflowInput (w : Width) (S : Operands) : Prop :=
  maxBytes w ≤ S.INLEN.toNat ∧
  (∀ (i : Nat) (h : i < 19), i + 1 < maxBytes w → S.IN[i].getLsbD 7 = true) ∧
  (∀ (i : Nat) (h : i < 19), i + 1 = maxBytes w → lastLim w ≤ S.IN[i].toNat % 128)

/-- No byte among the `min(INLEN, maxBytes(W))` examined has bit 7 clear (R141). -/
def NoTerminator (w : Width) (S : Operands) : Prop :=
  ∀ (i : Nat) (h : i < 19), i < min S.INLEN.toNat (maxBytes w) → S.IN[i].getLsbD 7 = true

/-- The machine's invariant. -/
structure State.Inv (s : State) : Prop where
  /-- BUSY = 1 exactly when a command is pending (R19). -/
  busy    : s.BUSY = s.PENDING.isSome
  /-- The pending command is the last one written, and its snapshot is the live input registers (R16,
  R23). -/
  live    : ∀ p, s.PENDING = some p → p.command = s.LASTCMD ∧ p.operands = s.inputs
  /-- RESULT is NONE while a command is pending (R18, R61). -/
  pending : s.BUSY = true → s.RESULT = 0
  /-- RESULT is never 6 or 7 (R18). -/
  result  : s.RESULT.toNat ≤ 5
  /-- COUNT is never 20 to 31 (R20). -/
  count   : s.COUNT.toNat ≤ 19
  /-- A successful command counted at least one byte (R20). -/
  success : s.RESULT = 1 → 1 ≤ s.COUNT.toNat

end Sys2Proof.Machine
end

