-- ==== Sys2Proof/Certificates/Slice0/Obligations.lean ====
section
/-! DEFINITION. The statements for the provers. Each docstring names the rule of spec/ it formalises. -/

open Sys2Proof
open Sys2Proof.Machine

/-- R160, R161, R163: at a rising edge with `rst` = 1, from any state (a command pending or not) and
whatever access is presented, every register takes its reset value and nothing is pending, so STATUS
reads 0x00 and no command is accepted. That read data is unspecified is the free `v`. -/
def Obligations.ResetEdgeGivesResetValues : Prop :=
  ∀ (s : State) (p : HostCycle) (rest : List Move),
    s.schedule = .cycle p :: rest → p.rst = true →
    ∃ (t : State) (v : Data) (n : Nat),
      step s = .next t ∧
      t = { IN := Vector.replicate 19 0, INLEN := 0, CAP := 0, VAL_IN := 0, LASTCMD := 0,
            BUSY := false, RESULT := 0, COUNT := 0, VAL_OUT := 0, OUT := Vector.replicate 19 0,
            PENDING := none, rdata := v, draws := n, schedule := rest } ∧
      exec (.rd .STATUS) t = .next { t with rdata := 0x00 }

/-- R160: the state after reset, register by register; STATUS reads 0x00. -/
def Obligations.ResetStateReadsZero : Prop :=
  (∀ r : Reg, State.reset.readReg r = 0) ∧ State.reset.STATUS = 0x00 ∧
  State.reset.BUSY = false ∧ State.reset.PENDING = none

/-- A step runs the decoded instruction: the host's access in its cycle, and the pending command at the
block's move or when the host presents nothing more (the schedule is the model's: log entry 1). -/
def Obligations.StepRunsDecodedInstruction : Prop :=
  (∀ (s : State) (p : HostCycle) (rest : List Move) (i : Instr),
    s.schedule = .cycle p :: rest → p.rst = false → p.req = true →
    decode (.access (BitVec.ofBool p.we ++ p.addr) p.wdata) = .ok i →
    step s = exec i { s with schedule := rest }) ∧
  (∀ (s : State) (q : PendingCmd) (rest : List Move) (i : Instr),
    s.schedule = .complete :: rest → s.PENDING = some q → decode (.command q.command) = .ok i →
    step s = exec i { s with schedule := rest }) ∧
  (∀ (s : State) (q : PendingCmd) (i : Instr),
    s.schedule = [] → s.PENDING = some q → decode (.command q.command) = .ok i →
    step s = exec i s)

/-- R154: with no command pending and no access presented (a cycle without one, or no further cycle), no
register changes. -/
def Obligations.IdleKeepsEveryRegister : Prop :=
  ∀ (s : State) (rest : List Move),
    s.PENDING = none →
    ((s.schedule = [] ∧ rest = []) ∨
      ∃ p : HostCycle, s.schedule = .cycle p :: rest ∧ p.rst = false ∧ p.req = false) →
    ∃ (v : Data) (n : Nat), step s = .next { s with rdata := v, draws := n, schedule := rest }

/-- R57: the nine rows of the command map, and nothing else is a command. -/
def Obligations.CommandMapIsTheNineValues : Prop :=
  (decode (.command 0x00) = .ok .dec32 ∧ decode (.command 0x04) = .ok .dec64 ∧
    decode (.command 0x08) = .ok .dec128 ∧ decode (.command 0x01) = .ok .enc32 ∧
    decode (.command 0x05) = .ok .enc64 ∧ decode (.command 0x09) = .ok .enc128 ∧
    decode (.command 0x02) = .ok .enci32 ∧ decode (.command 0x06) = .ok .enci64 ∧
    decode (.command 0x0A) = .ok .enci128) ∧
  ∀ c : Byte, c ∉ legalCommands → decode (.command c) = .error (.illegalCommand c)

/-- R62: bit 6 of the access word is WE, bits 5 to 0 are ADDR; with the rule's examples; and the word is
the port values `h_we`, `h_addr` of a cycle with `h_req` = 1. -/
def Obligations.AccessWordsDecode : Prop :=
  (∀ (a : Addr) (d : Data),
    decode (.access (1#1 ++ a) d) = .ok (.wr (decodeAddr a) d) ∧
    decode (.access (0#1 ++ a) d) = .ok (.rd (decodeAddr a))) ∧
  ∀ d : Data,
    decode (.access 0x40 d) = .ok (.wr (.IN 0) d) ∧ decode (.access 0x53 d) = .ok (.wr .INLEN d) ∧
    decode (.access 0x54 d) = .ok (.wr .CAP d) ∧ decode (.access 0x55 d) = .ok (.wr .VAL_IN d) ∧
    decode (.access 0x56 d) = .ok (.wr .CMD d) ∧ decode (.access 0x17 d) = .ok (.rd .STATUS) ∧
    decode (.access 0x18 d) = .ok (.rd .COUNT) ∧ decode (.access 0x19 d) = .ok (.rd .VAL_OUT) ∧
    decode (.access 0x20 d) = .ok (.rd (.OUT 0)) ∧
    ∀ (s : State) (p : HostCycle) (rest : List Move) (i : Instr),
      s.schedule = .cycle p :: rest → p.rst = false → p.req = true → p.wdata = d →
      decode (.access (BitVec.ofBool p.we ++ p.addr) d) = .ok i →
      step s = exec i { s with schedule := rest }

/-- Decoding an encoded well-formed instruction gives it back, every operand included. -/
def Obligations.DecodeEncodeRoundTrip : Prop :=
  ∀ i : Instr, i.WellFormed = true → decode (encode i) = .ok i

/-- What decodes is well formed and encodes to the word it came from; a read's word alone, since the data
beside a read is not part of it. -/
def Obligations.DecodedWordIsItsEncoding : Prop :=
  (∀ (c : Byte) (i : Instr), decode (.command c) = .ok i →
    i.WellFormed = true ∧ isAccess i = false ∧ encode i = .command c) ∧
  (∀ (a : BitVec 7) (d : Data) (i : Instr), decode (.access a d) = .ok i →
    i.WellFormed = true ∧ isAccess i = true ∧
    encode i = .access a (if a.getLsbD 6 then d else 0))

/-- R34, R168: a write at each address of the map. Idle: the register takes the low bits of the data, CMD
issues a command, read-only and reserved addresses change nothing; `h_rdata` carries no read (`v`). Busy:
the write is the fault `HostWriteWhileBusy`, at every address. -/
def Obligations.HostWriteAtEveryAddress : Prop :=
  ∀ (a : Addr) (d : Data) (s : State),
    (s.BUSY = false → ∃ (v : Data) (n : Nat),
      exec (.wr (decodeAddr a) d) s = .next
        (if h : a.toNat < 19 then
          { s with IN := s.IN.set a.toNat (d.setWidth 8) h, rdata := v, draws := n }
        else if a.toNat = 0x13 then { s with INLEN := d.setWidth 5, rdata := v, draws := n }
        else if a.toNat = 0x14 then { s with CAP := d.setWidth 5, rdata := v, draws := n }
        else if a.toNat = 0x15 then { s with VAL_IN := d, rdata := v, draws := n }
        else if a.toNat = 0x16 then
          { s with
            LASTCMD := d.setWidth 8, BUSY := true, RESULT := 0
            PENDING := some
              { command := d.setWidth 8
                operands := { IN := s.IN, INLEN := s.INLEN, CAP := s.CAP, VAL_IN := s.VAL_IN } }
            rdata := v, draws := n }
        else { s with rdata := v, draws := n })) ∧
    (s.BUSY = true → exec (.wr (decodeAddr a) d) s = .fault .hostWriteWhileBusy)

/-- R35, R169: a read at each address of the map, and nothing but `h_rdata` changes. While BUSY = 1 the
registers COUNT, VAL_OUT and OUT read as an unspecified value. -/
def Obligations.HostReadAtEveryAddress : Prop :=
  ∀ (a : Addr) (s : State),
    (s.BUSY = true → (a.toNat = 0x18 ∨ a.toNat = 0x19 ∨ (0x20 ≤ a.toNat ∧ a.toNat ≤ 0x32)) →
      ∃ (v : Data) (n : Nat),
        exec (.rd (decodeAddr a)) s = .next { s with rdata := v, draws := n }) ∧
    (s.BUSY = false ∨ ¬(a.toNat = 0x18 ∨ a.toNat = 0x19 ∨ (0x20 ≤ a.toNat ∧ a.toNat ≤ 0x32)) →
      exec (.rd (decodeAddr a)) s = .next
        { s with rdata :=
            if h : a.toNat < 19 then s.IN[a.toNat].setWidth 128
            else if a.toNat = 0x13 then s.INLEN.setWidth 128
            else if a.toNat = 0x14 then s.CAP.setWidth 128
            else if a.toNat = 0x15 then s.VAL_IN
            else if a.toNat = 0x16 then s.LASTCMD.setWidth 128
            else if a.toNat = 0x17 then (BitVec.ofBool s.BUSY ++ (0b0000#4 ++ s.RESULT)).setWidth 128
            else if a.toNat = 0x18 then s.COUNT.setWidth 128
            else if a.toNat = 0x19 then s.VAL_OUT
            else if h : 0x20 ≤ a.toNat ∧ a.toNat - 0x20 < 19 then s.OUT[a.toNat - 0x20].setWidth 128
            else 0 })

/-- R36: reserved addresses read as 0, and a write there changes no register. -/
def Obligations.ReservedAddressesReadZeroIgnoreWrites : Prop :=
  ∀ (a : Addr) (d : Data) (s : State),
    ((0x1A ≤ a.toNat ∧ a.toNat ≤ 0x1F) ∨ 0x33 ≤ a.toNat) →
    exec (.rd (decodeAddr a)) s = .next { s with rdata := 0 } ∧
    (s.BUSY = false → ∃ (v : Data) (n : Nat),
      exec (.wr (decodeAddr a) d) s = .next { s with rdata := v, draws := n })

/-- R60: STATUS reads as BUSY in bit 7, zeros in bits 6 to 3, RESULT in bits 2 to 0. -/
def Obligations.StatusReadLayout : Prop :=
  ∀ s : State, ∃ v : Data,
    exec (.rd .STATUS) s = .next { s with rdata := v } ∧
    v.toNat = (if s.BUSY then 128 else 0) + s.RESULT.toNat

/-- R164: an idle write to CMD accepts the command, legal or not; RESULT becomes NONE and the snapshot is
the input registers as they stand. A busy write to CMD is no acceptance but the fault. -/
def Obligations.CommandAcceptance : Prop :=
  ∀ (s : State) (d : Data),
    (s.BUSY = false → ∃ (v : Data) (n : Nat),
      exec (.wr .CMD d) s = .next
        { s with
          LASTCMD := d.setWidth 8, BUSY := true, RESULT := 0
          PENDING := some
            { command := d.setWidth 8
              operands := { IN := s.IN, INLEN := s.INLEN, CAP := s.CAP, VAL_IN := s.VAL_IN } }
          rdata := v, draws := n }) ∧
    (s.BUSY = true → exec (.wr .CMD d) s = .fault .hostWriteWhileBusy)

/-- R170: the reads that are defined while busy, in a state the invariant allows. -/
def Obligations.DefinedReadsWhileBusy : Prop :=
  ∀ (s : State) (p : PendingCmd), s.Inv → s.PENDING = some p →
    exec (.rd .STATUS) s = .next { s with rdata := 0x80 } ∧
    exec (.rd .CMD) s = .next { s with rdata := p.command.setWidth 128 } ∧
    exec (.rd .INLEN) s = .next { s with rdata := p.operands.INLEN.setWidth 128 } ∧
    exec (.rd .CAP) s = .next { s with rdata := p.operands.CAP.setWidth 128 } ∧
    exec (.rd .VAL_IN) s = .next { s with rdata := p.operands.VAL_IN } ∧
    (∀ k : Fin 19, exec (.rd (.IN k)) s = .next { s with rdata := p.operands.IN[k].setWidth 128 }) ∧
    (∀ a : Addr, exec (.rd (.reserved a)) s = .next { s with rdata := 0 })

/-- R37: a CMD write issues a command; a write to IN, INLEN, CAP or VAL_IN only stores, leaving `t`, the
state with that one register at the truncated datum, and writing it again leaves `t` too; no read has a side effect, and outside R169's exception every read of a register gives one value
while no write and no completion comes between: whatever `h_rdata`, the draw counter and the moves to
come, which are all that reads and cycles without an access change. -/
def Obligations.WritesIdempotentReadsRepeatable : Prop :=
  (∀ (s : State) (d : Data), s.BUSY = false →
    ∃ (v : Data) (n : Nat),
      exec (.wr .CMD d) s = .next
        { s with
          LASTCMD := d.setWidth 8, BUSY := true, RESULT := 0
          PENDING := some
            { command := d.setWidth 8
              operands := { IN := s.IN, INLEN := s.INLEN, CAP := s.CAP, VAL_IN := s.VAL_IN } }
          rdata := v, draws := n }) ∧
  (∀ (s t : State) (r : Reg) (d : Data), s.BUSY = false →
    ((∃ k : Fin 19, r = .IN k ∧ t = { s with IN := s.IN.set k.val (d.setWidth 8) k.isLt }) ∨
      (r = .INLEN ∧ t = { s with INLEN := d.setWidth 5 }) ∨
      (r = .CAP ∧ t = { s with CAP := d.setWidth 5 }) ∨
      (r = .VAL_IN ∧ t = { s with VAL_IN := d })) →
    ∃ (v v' : Data) (n n' : Nat),
      exec (.wr r d) s = .next { t with rdata := v, draws := n } ∧
      exec (.wr r d) { t with rdata := v, draws := n } = .next { t with rdata := v', draws := n' }) ∧
  (∀ (s : State) (r : Reg),
    (∃ t, exec (.rd r) s = .next t ∧ t = { s with rdata := t.rdata, draws := t.draws }) ∧
    (s.BUSY = false ∨ isResultReg r = false →
      ∃ v : Data, ∀ (x : Data) (n : Nat) (moves : List Move),
        exec (.rd r) { s with rdata := x, draws := n, schedule := moves } = .next
          { s with rdata := v, draws := n, schedule := moves }))

/-- R90, R91, R77: a decode's completion is the outcome of the scan over the snapshot, written to the
registers: on success VAL_OUT, COUNT and RESULT, on an error RESULT alone. DEC32, DEC64, DEC128. -/
def Obligations.DecodeRunsTheScan : Prop :=
  ∀ (w : Width) (s : State) (p : PendingCmd), s.PENDING = some p →
    ∃ r : Except ErrorKind (Nat × Nat),
      Scans w p.operands.IN p.operands.INLEN.toNat 0 0 r ∧
      exec (decOf w) s = .next
        (match r with
        | .ok (c, v) =>
          { s with
            VAL_OUT := BitVec.ofNat 128 v, COUNT := BitVec.ofNat 5 c, RESULT := 1, BUSY := false
            PENDING := none }
        | .error e =>
          { s with RESULT := if e = .overflow then 3 else 2, BUSY := false, PENDING := none })

/-- R91, R52: the decoder accepts exactly the inputs that begin with a well-formed varint for the width,
and then writes VAL_OUT, COUNT and RESULT; it rejects everything else with INCOMPLETE or OVERFLOW, and
then writes RESULT alone. DEC32, DEC64 and DEC128, whatever command is pending. -/
def Obligations.DecodeAcceptsWellFormedVarints : Prop :=
  ∀ (w : Width) (s : State) (p : PendingCmd), s.PENDING = some p →
    (∀ bs : List Byte, WellFormedVarint w bs →
      bs <+: p.operands.IN.toList.take p.operands.INLEN.toNat →
      exec (decOf w) s = .next
        { s with
          VAL_OUT := BitVec.ofNat 128 (varintValue bs), COUNT := BitVec.ofNat 5 bs.length
          RESULT := 1, BUSY := false, PENDING := none }) ∧
    ((¬∃ bs : List Byte, WellFormedVarint w bs ∧
        bs <+: p.operands.IN.toList.take p.operands.INLEN.toNat) →
      ∃ e : BitVec 3, (e = 2 ∨ e = 3) ∧
        exec (decOf w) s = .next { s with RESULT := e, BUSY := false, PENDING := none })

/-- R141, R142: which error a decode reports. OVERFLOW exactly when the last byte of the scan is examined
and its group is at least 16, 2 or 4; otherwise INCOMPLETE exactly when no byte examined has bit 7 clear.
COUNT and VAL_OUT keep their values. -/
def Obligations.DecodeErrorCauses : Prop :=
  ∀ (w : Width) (s : State) (p : PendingCmd), s.PENDING = some p →
    (OverflowInput w p.operands →
      exec (decOf w) s = .next { s with RESULT := 3, BUSY := false, PENDING := none }) ∧
    (¬OverflowInput w p.operands → NoTerminator w p.operands →
      exec (decOf w) s = .next { s with RESULT := 2, BUSY := false, PENDING := none }) ∧
    (¬OverflowInput w p.operands → ¬NoTerminator w p.operands →
      ∃ t, exec (decOf w) s = .next t ∧ t.RESULT = 1)

/-- R110, R111, R112: the allocating encode writes the bytes the algorithm emits for the low W bits of
VAL_IN, COUNT and RESULT, and nothing else; bytes of OUT past the encoding stay. ENC32, ENC64, ENC128. -/
def Obligations.EncodeWritesEmittedBytes : Prop :=
  ∀ (w : Width) (s : State) (p : PendingCmd), s.PENDING = some p →
    ∃ (e : List Byte) (out : Window),
      Emits (p.operands.VAL_IN.toNat % 2 ^ bits w) e ∧
      (∀ (i : Nat) (h : i < 19), out[i] = (e[i]?).getD s.OUT[i]) ∧
      exec (encOf w) s = .next
        { s with
          OUT := out, COUNT := BitVec.ofNat 5 e.length, RESULT := 1, BUSY := false, PENDING := none }

/-- The closed form of the encoding (the spec's derived R81 and R111's consequences): byte i carries bits
[7i+6:7i] of the value with bit 7 set below the last, and the length is `encLen`. -/
def Obligations.EncodeClosedForm : Prop :=
  ∀ (w : Width) (s : State) (p : PendingCmd) (v : Nat), s.PENDING = some p →
    v = p.operands.VAL_IN.toNat % 2 ^ bits w →
    encLen v ≤ maxBytes w ∧
    ∃ out : Window,
      (∀ (i : Nat) (h : i < 19), out[i] =
        if i < encLen v then makeByte (group v i) (more v i) else s.OUT[i]) ∧
      exec (encOf w) s = .next
        { s with
          OUT := out, COUNT := BitVec.ofNat 5 (encLen v), RESULT := 1, BUSY := false
          PENDING := none }

/-- R116, R117: the in-place encode. If the encoding fits CAP it writes what the allocating form writes;
if not it reports BUFFER_TOO_SMALL, bytes of OUT below CAP become unspecified, and bytes from CAP on,
COUNT and VAL_OUT stay. ENCI32, ENCI64, ENCI128. -/
def Obligations.EncodeInPlaceChecksCapacity : Prop :=
  ∀ (w : Width) (s : State) (p : PendingCmd), s.PENDING = some p →
    ∃ e : List Byte, Emits (p.operands.VAL_IN.toNat % 2 ^ bits w) e ∧
      1 ≤ e.length ∧ e.length ≤ 19 ∧
      (e.length ≤ p.operands.CAP.toNat → ∃ out : Window,
        (∀ (i : Nat) (h : i < 19), out[i] = (e[i]?).getD s.OUT[i]) ∧
        exec (enciOf w) s = .next
          { s with
            OUT := out, COUNT := BitVec.ofNat 5 e.length, RESULT := 1, BUSY := false
            PENDING := none }) ∧
      (p.operands.CAP.toNat < e.length → ∃ (out : Window) (n : Nat),
        (∀ (i : Nat) (h : i < 19), p.operands.CAP.toNat ≤ i → out[i] = s.OUT[i]) ∧
        exec (enciOf w) s = .next
          { s with OUT := out, draws := n, RESULT := 4, BUSY := false, PENDING := none })

/-- The spec's derived R121: where the value fits CAP bytes, the in-place form and the allocating form
leave the same state. -/
def Obligations.InPlaceFormAgreesWithAllocating : Prop :=
  ∀ (w : Width) (s : State) (p : PendingCmd), s.PENDING = some p →
    1 ≤ p.operands.CAP.toNat →
    p.operands.VAL_IN.toNat % 2 ^ bits w < 2 ^ (7 * p.operands.CAP.toNat) →
    exec (enciOf w) s = exec (encOf w) s

/-- The spec's derived R122 (and R53): what the encoder leaves in OUT is the unique minimal well-formed
varint of its operand, and no well-formed varint of the value is shorter. -/
def Obligations.EncodingIsUniqueMinimal : Prop :=
  ∀ (w : Width) (s : State) (p : PendingCmd), s.PENDING = some p →
    ∃ (t : State) (e : List Byte),
      exec (encOf w) s = .next t ∧ e = t.OUT.toList.take t.COUNT.toNat ∧
      WellFormedVarint w e ∧ Minimal e ∧
      varintValue e = p.operands.VAL_IN.toNat % 2 ^ bits w ∧
      ∀ bs : List Byte, WellFormedVarint w bs → varintValue bs = varintValue e →
        e.length ≤ bs.length ∧ (Minimal bs → bs = e)

/-- The spec's derived R123, with any bytes after the encoding (R95): decode what was encoded and the
operand comes back, with the same count. -/
def Obligations.EncodeDecodeRoundTrip : Prop :=
  ∀ (w : Width) (s : State) (p : PendingCmd), s.PENDING = some p →
    ∃ t : State, exec (encOf w) s = .next t ∧
      ∀ (u : State) (q : PendingCmd), u.PENDING = some q →
        (∀ (i : Nat) (h : i < 19), i < t.COUNT.toNat → q.operands.IN[i] = t.OUT[i]) →
        t.COUNT.toNat ≤ q.operands.INLEN.toNat →
        exec (decOf w) u = .next
          { u with
            VAL_OUT := BitVec.ofNat 128 (p.operands.VAL_IN.toNat % 2 ^ bits w)
            COUNT := t.COUNT, RESULT := 1, BUSY := false, PENDING := none }

/-- The spec's derived R99: a decode that succeeds at one width succeeds the same way at a wider one. -/
def Obligations.DecodeWidthsNest : Prop :=
  ∀ (w w' : Width) (s t : State) (p : PendingCmd), s.PENDING = some p → bits w ≤ bits w' →
    exec (decOf w) s = .next t → t.RESULT = 1 → exec (decOf w') s = .next t

/-- The spec's derived R95: a decode that does not run out of input depends on no byte past the one it
stops at. If two pending inputs agree on their first `k` bytes and both hold `k`, and one decode stops
within them, the other reports the same. -/
def Obligations.DecodeReadsNothingPastItsEnd : Prop :=
  ∀ (w : Width) (s s' t : State) (p p' : PendingCmd) (k : Nat),
    s.PENDING = some p → s'.PENDING = some p' →
    k ≤ p.operands.INLEN.toNat → k ≤ p'.operands.INLEN.toNat →
    (∀ (i : Nat) (h : i < 19), i < k → p.operands.IN[i] = p'.operands.IN[i]) →
    exec (decOf w) s = .next t →
    (t.RESULT = 1 ∧ t.COUNT.toNat ≤ k) ∨ (t.RESULT = 3 ∧ maxBytes w ≤ k) →
    ∃ t', exec (decOf w) s' = .next t' ∧ t'.RESULT = t.RESULT ∧
      (t.RESULT = 1 → t'.COUNT = t.COUNT ∧ t'.VAL_OUT = t.VAL_OUT)

/-- R24: what each command's completion reads. Decodes read IN and INLEN of the snapshot, encodes VAL_IN
(its low W bits), in-place encodes CAP too: two states that agree on those and on COUNT, VAL_OUT and OUT
still agree on them and on RESULT after it, whatever the other registers hold (for the free bytes of a
failed in-place encode, OUT from CAP on). No command writes an input register. -/
def Obligations.CommandReadsOnlyItsOperands : Prop :=
  ∀ (w : Width) (s s' : State) (p p' : PendingCmd),
    s.PENDING = some p → s'.PENDING = some p' →
    s.COUNT = s'.COUNT → s.VAL_OUT = s'.VAL_OUT → s.OUT = s'.OUT →
    (p.operands.IN = p'.operands.IN → p.operands.INLEN = p'.operands.INLEN →
      ∃ t t', exec (decOf w) s = .next t ∧ exec (decOf w) s' = .next t' ∧
        t.RESULT = t'.RESULT ∧ t.COUNT = t'.COUNT ∧ t.VAL_OUT = t'.VAL_OUT ∧
        t.OUT = s.OUT ∧ t'.OUT = s.OUT ∧ t.inputs = s.inputs ∧ t'.inputs = s'.inputs) ∧
    (p.operands.VAL_IN.toNat % 2 ^ bits w = p'.operands.VAL_IN.toNat % 2 ^ bits w →
      ∃ t t', exec (encOf w) s = .next t ∧ exec (encOf w) s' = .next t' ∧
        t.RESULT = 1 ∧ t'.RESULT = 1 ∧ t.COUNT = t'.COUNT ∧ t.OUT = t'.OUT ∧
        t.VAL_OUT = s.VAL_OUT ∧ t'.VAL_OUT = s.VAL_OUT ∧
        t.inputs = s.inputs ∧ t'.inputs = s'.inputs) ∧
    (p.operands.VAL_IN.toNat % 2 ^ bits w = p'.operands.VAL_IN.toNat % 2 ^ bits w →
      p.operands.CAP = p'.operands.CAP →
      ∃ t t', exec (enciOf w) s = .next t ∧ exec (enciOf w) s' = .next t' ∧
        t.RESULT = t'.RESULT ∧ t.COUNT = t'.COUNT ∧
        (∀ (i : Nat) (h : i < 19), t.RESULT = 1 ∨ p.operands.CAP.toNat ≤ i → t.OUT[i] = t'.OUT[i]) ∧
        t.VAL_OUT = s.VAL_OUT ∧ t'.VAL_OUT = s.VAL_OUT ∧
        t.inputs = s.inputs ∧ t'.inputs = s'.inputs)

/-- The spec's derived clause of R43: no register is written by both agents. A command leaves every input
register and LASTCMD; an access leaves COUNT, VAL_OUT and OUT. The model's choice, and no rule: a command
leaves `rdata`, the port `h_rdata` (log entry 3), no meaning touches `schedule` (log entry 1), and a
command's meaning answers with nothing pending too (log entry 4). -/
def Obligations.NoRegisterHasTwoWriters : Prop :=
  ∀ (i : Instr) (s t : State), exec i s = .next t →
    (isAccess i = false → t.IN = s.IN ∧ t.INLEN = s.INLEN ∧ t.CAP = s.CAP ∧
      t.VAL_IN = s.VAL_IN ∧ t.LASTCMD = s.LASTCMD ∧ t.rdata = s.rdata ∧ t.schedule = s.schedule) ∧
    (isAccess i = true → t.COUNT = s.COUNT ∧ t.VAL_OUT = s.VAL_OUT ∧ t.OUT = s.OUT ∧
      t.schedule = s.schedule)

/-- R20 and R21 on failure: a command that completes with any result but OK leaves COUNT and VAL_OUT, and
no encode writes VAL_OUT; R22: no decode writes OUT. That a command completes is R165 while one is pending
(R167); in a state with nothing pending, which no step completes a command in, its meaning is the model's
choice (log entry 4). -/
def Obligations.FailedCommandKeepsResults : Prop :=
  ∀ (i : Instr) (s : State), isAccess i = false →
    ∃ t, exec i s = .next t ∧
      (t.RESULT ≠ 1 → t.COUNT = s.COUNT ∧ t.VAL_OUT = s.VAL_OUT) ∧
      ((∀ w, i ≠ decOf w) → t.VAL_OUT = s.VAL_OUT) ∧
      ((∃ w, i = decOf w) → t.OUT = s.OUT)

/-- R144: any value outside the command map is accepted like another, completes with RESULT = 5 and
changes no other register; LASTCMD keeps the value, and the block is usable: the next command is accepted. -/
def Obligations.IllegalCommandCompletes : Prop :=
  ∀ (s : State) (rest : List Move),
    (∀ d : Data, s.BUSY = false → d.setWidth 8 ∉ legalCommands →
      ∃ t, exec (.wr .CMD d) s = .next t ∧ t.LASTCMD = d.setWidth 8 ∧ t.BUSY = true ∧
        ∃ q, t.PENDING = some q ∧ q.command = d.setWidth 8) ∧
    (∀ p : PendingCmd, s.PENDING = some p → p.command ∉ legalCommands →
      s.schedule = .complete :: rest →
      ∃ t, step s = .next t ∧
        t = { s with RESULT := 5, BUSY := false, PENDING := none, schedule := rest } ∧
        ∀ d : Data, ∃ u q, exec (.wr .CMD d) t = .next u ∧ u.PENDING = some q ∧
          q.command = d.setWidth 8 ∧ q.operands = s.inputs)

/-- R146: the one result code a completion reports, judged in its order: an illegal value first, and then
no operation; a decode by the scan's checks; an allocating encode always OK; an in-place encode by its
capacity. -/
def Obligations.ResultCodePriority : Prop :=
  ∀ (s : State) (p : PendingCmd) (rest : List Move), s.PENDING = some p →
    s.schedule = .complete :: rest →
    ∃ t, step s = .next t ∧
      (p.command ∉ legalCommands →
        t = { s with RESULT := 5, BUSY := false, PENDING := none, schedule := rest }) ∧
      ∀ w : Width,
        (decode (.command p.command) = .ok (decOf w) →
          ∃ r : Except ErrorKind (Nat × Nat),
            Scans w p.operands.IN p.operands.INLEN.toNat 0 0 r ∧
            t.RESULT =
              match r with
              | .error e => if e = .overflow then 3 else 2
              | .ok _ => 1) ∧
        (decode (.command p.command) = .ok (encOf w) → t.RESULT = 1) ∧
        (decode (.command p.command) = .ok (enciOf w) →
          t.RESULT =
            if p.operands.CAP.toNat < encLen (p.operands.VAL_IN.toNat % 2 ^ bits w) then 4 else 1)

/-- R165 with R167's fairness: the block's move completes whatever command is pending, and so does the
step when the host presents nothing more; the outcome is one of the codes 1 to 5. -/
def Obligations.PendingCommandCompletes : Prop :=
  ∀ (s : State) (p : PendingCmd) (rest : List Move), s.PENDING = some p →
    (s.schedule = .complete :: rest ∨ (s.schedule = [] ∧ rest = [])) →
    ∃ t, step s = .next t ∧ t.BUSY = false ∧ t.PENDING = none ∧
      1 ≤ t.RESULT.toNat ∧ t.RESULT.toNat ≤ 5 ∧ t.inputs = s.inputs ∧ t.LASTCMD = s.LASTCMD ∧
      t.schedule = rest

/-- R168: the machine stops exactly when a write is presented while BUSY = 1, with that fault; no step is
refused. That a write presented with `rst` = 1 is no such write is R163 (writes are ignored in that cycle),
as log entry 7 reads it: DEDUCED, not R168's words. -/
def Obligations.OnlyBusyWritesStop : Prop :=
  ∀ s : State,
    (∀ r : Refusal, step s ≠ .refused r) ∧
    (∀ f : Fault, step s = .fault f ↔
      f = .hostWriteWhileBusy ∧ s.BUSY = true ∧
      ∃ (p : HostCycle) (rest : List Move), s.schedule = .cycle p :: rest ∧
        p.rst = false ∧ p.req = true ∧ p.we = true)

/-- The invariant holds of the state after reset. -/
def Obligations.ResetStateMeetsInvariant : Prop := State.reset.Inv

/-- Every step from a state that meets the invariant keeps it (R18, R19, R20, R23). -/
def Obligations.StepKeepsInvariant : Prop :=
  ∀ s t : State, s.Inv → step s = .next t → t.Inv

/-- R43 item 4: once a read of STATUS returns BUSY = 0, no command is pending and every read after it
returns the register's value. -/
def Obligations.StatusIdleMeansResultsVisible : Prop :=
  ∀ s : State, s.Inv → ∃ t, exec (.rd .STATUS) s = .next t ∧
    (t.rdata.getLsbD 7 = false → t.PENDING = none ∧
      ∀ r : Reg, exec (.rd r) t = .next { t with rdata := t.readReg r })

/-- R6: `maxBytes(W)` is 5, 10, 19; it is `ceil(W/7)`, the least m with `W ≤ 7m` (the spec's derived
check). -/
def Obligations.MaxBytesValues : Prop :=
  maxBytes .w32 = 5 ∧ maxBytes .w64 = 10 ∧ maxBytes .w128 = 19 ∧
  ∀ w : Width, 7 * (maxBytes w - 1) < bits w ∧ bits w ≤ 7 * maxBytes w

/-- R70, R72, R74: the byte's two fields, read and built. The last line is the clause of R74 that the spec
marks as its own derivation from R70 and R72. -/
def Obligations.ByteFieldsReadAndBuilt : Prop :=
  (∀ b : Byte, cont b = b.getLsbD 7 ∧ (data b).toNat = b.toNat % 128) ∧
  (∀ g : BitVec 7,
    (makeByte g true).toNat = 128 + g.toNat ∧ (makeByte g false).toNat = g.toNat) ∧
  ∀ (g : BitVec 7) (c : Bool), cont (makeByte g c) = c ∧ data (makeByte g c) = g

/-- The spec's derived R78, R79 and R80: within the scan the combiner fails only at the last index, exactly
when the group is at least 16, 2 or 4; otherwise adding is or-ing and the sum stays below the next group. -/
def Obligations.CombineOverflowsOnlyAtLastByte : Prop :=
  ∀ (w : Width) (acc : Nat) (g : BitVec 7) (i : Nat), i < maxBytes w → acc < 2 ^ (7 * i) →
    (i + 1 = maxBytes w ∧ lastLim w ≤ g.toNat → combine w acc g i = .error .overflow) ∧
    (¬(i + 1 = maxBytes w ∧ lastLim w ≤ g.toNat) →
      combine w acc g i = .ok (acc ||| (g.toNat <<< (7 * i))) ∧
      acc + g.toNat * 2 ^ (7 * i) < 2 ^ (7 * (i + 1)))

/-- The spec's derived forms of R76: `encLen` is 1 up to 127, and k ≥ 2 exactly between `2^(7(k-1))` and
`2^(7k) - 1`. -/
def Obligations.EncLenBoundaries : Prop :=
  (∀ v : Nat, encLen v = 1 ↔ v ≤ 127) ∧
  ∀ v k : Nat, 2 ≤ k → (encLen v = k ↔ 2 ^ (7 * (k - 1)) ≤ v ∧ v ≤ 2 ^ (7 * k) - 1)

/-- R64: `load_in` of at most 19 bytes on an idle block leaves them in IN from index 0 and their number in
INLEN, and nothing else changes. -/
def Obligations.LoadInFillsTheWindow : Prop :=
  ∀ (bs : List Byte) (s : State), bs.length ≤ 19 → s.BUSY = false →
    ∃ (win : Window) (v : Data) (n : Nat),
      (∀ (i : Nat) (h : i < 19), win[i] = (bs[i]?).getD s.IN[i]) ∧
      runAccesses (expand (.loadIn bs)) s = .next
        { s with IN := win, INLEN := BitVec.ofNat 5 bs.length, rdata := v, draws := n }

/-- R165, R166: with latency function `lat`, a command accepted at one edge is pending after `n` further
edges without a write or a reset exactly when `n` is below its latency. -/
def Obligations.CommandCompletesAtItsLatency : Prop :=
  ∀ (lat : Byte → Operands → Nat) (t : TimedState) (d : Data) (cs : List HostCycle),
    t.core.BUSY = false → t.core.PENDING = none →
    (∀ c ∈ cs, c.rst = false ∧ (c.req = true → c.we = false)) →
    ∃ u : TimedState,
      clockEdges lat
        ({ rst := false, req := true, we := true, addr := 0x16, wdata := d } :: cs) t = .next u ∧
      (u.core.PENDING.isSome = true ↔ cs.length < lat (d.setWidth 8) t.core.inputs) ∧
      (u.core.BUSY = true ↔ cs.length < lat (d.setWidth 8) t.core.inputs)

/-- R167: the untimed machine admits every run of the timed one, for every latency function: some
schedule of moves takes the same block to the same state. -/
def Obligations.TimedRunsAreUntimedRuns : Prop :=
  ∀ (lat : Byte → Operands → Nat) (cs : List HostCycle) (t u : TimedState),
    clockEdges lat cs t = .next u → u.core.schedule = [] →
    ∃ moves : List Move,
      moves.filter (fun m => m != .complete) = cs.map .cycle ∧
      Host.Core.run Sys2Proof.core moves.length (t.core.setSchedule moves) = .next u.core
end

