-- ==== Sys2Proof/Laws/Decode.lean ====
section
/-! SUPPORT. The register map read both ways. -/

namespace Sys2Proof

/-- Every address stands for a well-formed register operand (R33). -/
theorem decodeAddr_wellFormed (a : Addr) : (decodeAddr a).WellFormed = true := by
  revert a; decide

/-- The address of the register an address stands for is that address (R33). -/
theorem encodeAddr_decodeAddr (a : Addr) : encodeAddr (decodeAddr a) = a := by
  revert a; decide

/-- A well-formed register operand is read back from its address (R33). -/
theorem decodeAddr_encodeAddr (r : Reg) (h : r.WellFormed = true) :
    decodeAddr (encodeAddr r) = r := by
  cases r with
  | IN k => revert k; decide
  | OUT k => revert k; decide
  | reserved a => revert a; decide
  | _ => rfl

/-- An access word is WE above ADDR (R62). -/
theorem decodeAccess_append (we : Bool) (a : Addr) (d : Data) :
    decodeAccess (BitVec.ofBool we ++ a) d =
      if we then .wr (decodeAddr a) d else .rd (decodeAddr a) := by
  have h1 : (BitVec.ofBool we ++ a).getLsbD 6 = we := by revert we a; decide
  have h2 : (BitVec.ofBool we ++ a).setWidth 6 = a := by revert we a; decide
  rw [decodeAccess, h1, h2]

end Sys2Proof
end

