-- ==== Sys2Proof/Laws/State.lean ====
section
/-! SUPPORT. What each shared operation does to each field of State, one lemma per field, so that no later
proof unfolds a record update. -/

namespace Sys2Proof.Machine

/-! `State.setSchedule` writes `schedule` alone. -/

section

@[simp] theorem setSchedule_IN (rest : List Move) (s : State) : (s.setSchedule rest).IN = s.IN := rfl
@[simp] theorem setSchedule_INLEN (rest : List Move) (s : State) : (s.setSchedule rest).INLEN = s.INLEN := rfl
@[simp] theorem setSchedule_CAP (rest : List Move) (s : State) : (s.setSchedule rest).CAP = s.CAP := rfl
@[simp] theorem setSchedule_VAL_IN (rest : List Move) (s : State) : (s.setSchedule rest).VAL_IN = s.VAL_IN := rfl
@[simp] theorem setSchedule_LASTCMD (rest : List Move) (s : State) : (s.setSchedule rest).LASTCMD = s.LASTCMD := rfl
@[simp] theorem setSchedule_BUSY (rest : List Move) (s : State) : (s.setSchedule rest).BUSY = s.BUSY := rfl
@[simp] theorem setSchedule_RESULT (rest : List Move) (s : State) : (s.setSchedule rest).RESULT = s.RESULT := rfl
@[simp] theorem setSchedule_COUNT (rest : List Move) (s : State) : (s.setSchedule rest).COUNT = s.COUNT := rfl
@[simp] theorem setSchedule_VAL_OUT (rest : List Move) (s : State) : (s.setSchedule rest).VAL_OUT = s.VAL_OUT := rfl
@[simp] theorem setSchedule_OUT (rest : List Move) (s : State) : (s.setSchedule rest).OUT = s.OUT := rfl
@[simp] theorem setSchedule_PENDING (rest : List Move) (s : State) : (s.setSchedule rest).PENDING = s.PENDING := rfl
@[simp] theorem setSchedule_rdata (rest : List Move) (s : State) : (s.setSchedule rest).rdata = s.rdata := rfl
@[simp] theorem setSchedule_draws (rest : List Move) (s : State) : (s.setSchedule rest).draws = s.draws := rfl
@[simp] theorem setSchedule_schedule (rest : List Move) (s : State) : (s.setSchedule rest).schedule = rest := rfl
@[simp] theorem setSchedule_inputs (rest : List Move) (s : State) : (s.setSchedule rest).inputs = s.inputs := rfl
@[simp] theorem setSchedule_setSchedule (xs ys : List Move) (s : State) : (s.setSchedule xs).setSchedule ys = s.setSchedule ys := rfl

/-- Leaving the schedule as it is changes nothing. -/
theorem setSchedule_self {s : State} {rest : List Move} (h : s.schedule = rest) : s.setSchedule rest = s := by
  subst h; rfl

end

/-! `State.drive` writes `rdata` alone. -/

section

@[simp] theorem drive_IN (v : Data) (s : State) : (s.drive v).IN = s.IN := rfl
@[simp] theorem drive_INLEN (v : Data) (s : State) : (s.drive v).INLEN = s.INLEN := rfl
@[simp] theorem drive_CAP (v : Data) (s : State) : (s.drive v).CAP = s.CAP := rfl
@[simp] theorem drive_VAL_IN (v : Data) (s : State) : (s.drive v).VAL_IN = s.VAL_IN := rfl
@[simp] theorem drive_LASTCMD (v : Data) (s : State) : (s.drive v).LASTCMD = s.LASTCMD := rfl
@[simp] theorem drive_BUSY (v : Data) (s : State) : (s.drive v).BUSY = s.BUSY := rfl
@[simp] theorem drive_RESULT (v : Data) (s : State) : (s.drive v).RESULT = s.RESULT := rfl
@[simp] theorem drive_COUNT (v : Data) (s : State) : (s.drive v).COUNT = s.COUNT := rfl
@[simp] theorem drive_VAL_OUT (v : Data) (s : State) : (s.drive v).VAL_OUT = s.VAL_OUT := rfl
@[simp] theorem drive_OUT (v : Data) (s : State) : (s.drive v).OUT = s.OUT := rfl
@[simp] theorem drive_PENDING (v : Data) (s : State) : (s.drive v).PENDING = s.PENDING := rfl
@[simp] theorem drive_rdata (v : Data) (s : State) : (s.drive v).rdata = v := rfl
@[simp] theorem drive_draws (v : Data) (s : State) : (s.drive v).draws = s.draws := rfl
@[simp] theorem drive_schedule (v : Data) (s : State) : (s.drive v).schedule = s.schedule := rfl
@[simp] theorem drive_inputs (v : Data) (s : State) : (s.drive v).inputs = s.inputs := rfl

end

/-! `State.driveUnspecified` writes `rdata` and the draw counter. -/

section

@[simp] theorem driveUnspecified_IN (s : State) : s.driveUnspecified.IN = s.IN := rfl
@[simp] theorem driveUnspecified_INLEN (s : State) : s.driveUnspecified.INLEN = s.INLEN := rfl
@[simp] theorem driveUnspecified_CAP (s : State) : s.driveUnspecified.CAP = s.CAP := rfl
@[simp] theorem driveUnspecified_VAL_IN (s : State) : s.driveUnspecified.VAL_IN = s.VAL_IN := rfl
@[simp] theorem driveUnspecified_LASTCMD (s : State) : s.driveUnspecified.LASTCMD = s.LASTCMD := rfl
@[simp] theorem driveUnspecified_BUSY (s : State) : s.driveUnspecified.BUSY = s.BUSY := rfl
@[simp] theorem driveUnspecified_RESULT (s : State) : s.driveUnspecified.RESULT = s.RESULT := rfl
@[simp] theorem driveUnspecified_COUNT (s : State) : s.driveUnspecified.COUNT = s.COUNT := rfl
@[simp] theorem driveUnspecified_VAL_OUT (s : State) : s.driveUnspecified.VAL_OUT = s.VAL_OUT := rfl
@[simp] theorem driveUnspecified_OUT (s : State) : s.driveUnspecified.OUT = s.OUT := rfl
@[simp] theorem driveUnspecified_PENDING (s : State) : s.driveUnspecified.PENDING = s.PENDING := rfl
@[simp] theorem driveUnspecified_rdata (s : State) : s.driveUnspecified.rdata = Config.drawWord s.draws := rfl
@[simp] theorem driveUnspecified_draws (s : State) : s.driveUnspecified.draws = s.draws + 1 := rfl
@[simp] theorem driveUnspecified_schedule (s : State) : s.driveUnspecified.schedule = s.schedule := rfl
@[simp] theorem driveUnspecified_inputs (s : State) : s.driveUnspecified.inputs = s.inputs := rfl

end

/-! `State.issue` writes LASTCMD, PENDING, BUSY and RESULT (R164). -/

section

@[simp] theorem issue_IN (c : Byte) (s : State) : (s.issue c).IN = s.IN := rfl
@[simp] theorem issue_INLEN (c : Byte) (s : State) : (s.issue c).INLEN = s.INLEN := rfl
@[simp] theorem issue_CAP (c : Byte) (s : State) : (s.issue c).CAP = s.CAP := rfl
@[simp] theorem issue_VAL_IN (c : Byte) (s : State) : (s.issue c).VAL_IN = s.VAL_IN := rfl
@[simp] theorem issue_LASTCMD (c : Byte) (s : State) : (s.issue c).LASTCMD = c := rfl
@[simp] theorem issue_BUSY (c : Byte) (s : State) : (s.issue c).BUSY = true := rfl
@[simp] theorem issue_RESULT (c : Byte) (s : State) : (s.issue c).RESULT = resultNone := rfl
@[simp] theorem issue_COUNT (c : Byte) (s : State) : (s.issue c).COUNT = s.COUNT := rfl
@[simp] theorem issue_VAL_OUT (c : Byte) (s : State) : (s.issue c).VAL_OUT = s.VAL_OUT := rfl
@[simp] theorem issue_OUT (c : Byte) (s : State) : (s.issue c).OUT = s.OUT := rfl
@[simp] theorem issue_PENDING (c : Byte) (s : State) : (s.issue c).PENDING = some { command := c, operands := s.inputs } := rfl
@[simp] theorem issue_rdata (c : Byte) (s : State) : (s.issue c).rdata = s.rdata := rfl
@[simp] theorem issue_draws (c : Byte) (s : State) : (s.issue c).draws = s.draws := rfl
@[simp] theorem issue_schedule (c : Byte) (s : State) : (s.issue c).schedule = s.schedule := rfl
@[simp] theorem issue_inputs (c : Byte) (s : State) : (s.issue c).inputs = s.inputs := rfl

end

/-! `State.retire` clears BUSY and PENDING (R165). -/

section

@[simp] theorem retire_IN (s : State) : s.retire.IN = s.IN := rfl
@[simp] theorem retire_INLEN (s : State) : s.retire.INLEN = s.INLEN := rfl
@[simp] theorem retire_CAP (s : State) : s.retire.CAP = s.CAP := rfl
@[simp] theorem retire_VAL_IN (s : State) : s.retire.VAL_IN = s.VAL_IN := rfl
@[simp] theorem retire_LASTCMD (s : State) : s.retire.LASTCMD = s.LASTCMD := rfl
@[simp] theorem retire_BUSY (s : State) : s.retire.BUSY = false := rfl
@[simp] theorem retire_RESULT (s : State) : s.retire.RESULT = s.RESULT := rfl
@[simp] theorem retire_COUNT (s : State) : s.retire.COUNT = s.COUNT := rfl
@[simp] theorem retire_VAL_OUT (s : State) : s.retire.VAL_OUT = s.VAL_OUT := rfl
@[simp] theorem retire_OUT (s : State) : s.retire.OUT = s.OUT := rfl
@[simp] theorem retire_PENDING (s : State) : s.retire.PENDING = none := rfl
@[simp] theorem retire_rdata (s : State) : s.retire.rdata = s.rdata := rfl
@[simp] theorem retire_draws (s : State) : s.retire.draws = s.draws := rfl
@[simp] theorem retire_schedule (s : State) : s.retire.schedule = s.schedule := rfl
@[simp] theorem retire_inputs (s : State) : s.retire.inputs = s.inputs := rfl

end

/-! `State.fail` writes RESULT alone (R141 to R145). -/

section

@[simp] theorem fail_IN (e : ErrorKind) (s : State) : (s.fail e).IN = s.IN := rfl
@[simp] theorem fail_INLEN (e : ErrorKind) (s : State) : (s.fail e).INLEN = s.INLEN := rfl
@[simp] theorem fail_CAP (e : ErrorKind) (s : State) : (s.fail e).CAP = s.CAP := rfl
@[simp] theorem fail_VAL_IN (e : ErrorKind) (s : State) : (s.fail e).VAL_IN = s.VAL_IN := rfl
@[simp] theorem fail_LASTCMD (e : ErrorKind) (s : State) : (s.fail e).LASTCMD = s.LASTCMD := rfl
@[simp] theorem fail_BUSY (e : ErrorKind) (s : State) : (s.fail e).BUSY = s.BUSY := rfl
@[simp] theorem fail_RESULT (e : ErrorKind) (s : State) : (s.fail e).RESULT = errorCode e := rfl
@[simp] theorem fail_COUNT (e : ErrorKind) (s : State) : (s.fail e).COUNT = s.COUNT := rfl
@[simp] theorem fail_VAL_OUT (e : ErrorKind) (s : State) : (s.fail e).VAL_OUT = s.VAL_OUT := rfl
@[simp] theorem fail_OUT (e : ErrorKind) (s : State) : (s.fail e).OUT = s.OUT := rfl
@[simp] theorem fail_PENDING (e : ErrorKind) (s : State) : (s.fail e).PENDING = s.PENDING := rfl
@[simp] theorem fail_rdata (e : ErrorKind) (s : State) : (s.fail e).rdata = s.rdata := rfl
@[simp] theorem fail_draws (e : ErrorKind) (s : State) : (s.fail e).draws = s.draws := rfl
@[simp] theorem fail_schedule (e : ErrorKind) (s : State) : (s.fail e).schedule = s.schedule := rfl
@[simp] theorem fail_inputs (e : ErrorKind) (s : State) : (s.fail e).inputs = s.inputs := rfl

end

/-! `State.decoded` writes VAL_OUT, COUNT and RESULT (R91). -/

section

@[simp] theorem decoded_IN (c v : Nat) (s : State) : (s.decoded c v).IN = s.IN := rfl
@[simp] theorem decoded_INLEN (c v : Nat) (s : State) : (s.decoded c v).INLEN = s.INLEN := rfl
@[simp] theorem decoded_CAP (c v : Nat) (s : State) : (s.decoded c v).CAP = s.CAP := rfl
@[simp] theorem decoded_VAL_IN (c v : Nat) (s : State) : (s.decoded c v).VAL_IN = s.VAL_IN := rfl
@[simp] theorem decoded_LASTCMD (c v : Nat) (s : State) : (s.decoded c v).LASTCMD = s.LASTCMD := rfl
@[simp] theorem decoded_BUSY (c v : Nat) (s : State) : (s.decoded c v).BUSY = s.BUSY := rfl
@[simp] theorem decoded_RESULT (c v : Nat) (s : State) : (s.decoded c v).RESULT = resultOk := rfl
@[simp] theorem decoded_COUNT (c v : Nat) (s : State) : (s.decoded c v).COUNT = BitVec.ofNat 5 c := rfl
@[simp] theorem decoded_VAL_OUT (c v : Nat) (s : State) : (s.decoded c v).VAL_OUT = BitVec.ofNat 128 v := rfl
@[simp] theorem decoded_OUT (c v : Nat) (s : State) : (s.decoded c v).OUT = s.OUT := rfl
@[simp] theorem decoded_PENDING (c v : Nat) (s : State) : (s.decoded c v).PENDING = s.PENDING := rfl
@[simp] theorem decoded_rdata (c v : Nat) (s : State) : (s.decoded c v).rdata = s.rdata := rfl
@[simp] theorem decoded_draws (c v : Nat) (s : State) : (s.decoded c v).draws = s.draws := rfl
@[simp] theorem decoded_schedule (c v : Nat) (s : State) : (s.decoded c v).schedule = s.schedule := rfl
@[simp] theorem decoded_inputs (c v : Nat) (s : State) : (s.decoded c v).inputs = s.inputs := rfl

end

/-! `State.encoded` writes OUT, COUNT and RESULT (R112). -/

section

@[simp] theorem encoded_IN (e : List Byte) (s : State) : (s.encoded e).IN = s.IN := rfl
@[simp] theorem encoded_INLEN (e : List Byte) (s : State) : (s.encoded e).INLEN = s.INLEN := rfl
@[simp] theorem encoded_CAP (e : List Byte) (s : State) : (s.encoded e).CAP = s.CAP := rfl
@[simp] theorem encoded_VAL_IN (e : List Byte) (s : State) : (s.encoded e).VAL_IN = s.VAL_IN := rfl
@[simp] theorem encoded_LASTCMD (e : List Byte) (s : State) : (s.encoded e).LASTCMD = s.LASTCMD := rfl
@[simp] theorem encoded_BUSY (e : List Byte) (s : State) : (s.encoded e).BUSY = s.BUSY := rfl
@[simp] theorem encoded_RESULT (e : List Byte) (s : State) : (s.encoded e).RESULT = resultOk := rfl
@[simp] theorem encoded_COUNT (e : List Byte) (s : State) : (s.encoded e).COUNT = BitVec.ofNat 5 e.length := rfl
@[simp] theorem encoded_VAL_OUT (e : List Byte) (s : State) : (s.encoded e).VAL_OUT = s.VAL_OUT := rfl
@[simp] theorem encoded_OUT (e : List Byte) (s : State) : (s.encoded e).OUT = overwrite s.OUT e := rfl
@[simp] theorem encoded_PENDING (e : List Byte) (s : State) : (s.encoded e).PENDING = s.PENDING := rfl
@[simp] theorem encoded_rdata (e : List Byte) (s : State) : (s.encoded e).rdata = s.rdata := rfl
@[simp] theorem encoded_draws (e : List Byte) (s : State) : (s.encoded e).draws = s.draws := rfl
@[simp] theorem encoded_schedule (e : List Byte) (s : State) : (s.encoded e).schedule = s.schedule := rfl
@[simp] theorem encoded_inputs (e : List Byte) (s : State) : (s.encoded e).inputs = s.inputs := rfl

end

/-! `State.scrambleOut` writes OUT and the draw counter (R117). -/

section

@[simp] theorem scrambleOut_IN (n : Nat) (s : State) : (s.scrambleOut n).IN = s.IN := rfl
@[simp] theorem scrambleOut_INLEN (n : Nat) (s : State) : (s.scrambleOut n).INLEN = s.INLEN := rfl
@[simp] theorem scrambleOut_CAP (n : Nat) (s : State) : (s.scrambleOut n).CAP = s.CAP := rfl
@[simp] theorem scrambleOut_VAL_IN (n : Nat) (s : State) : (s.scrambleOut n).VAL_IN = s.VAL_IN := rfl
@[simp] theorem scrambleOut_LASTCMD (n : Nat) (s : State) : (s.scrambleOut n).LASTCMD = s.LASTCMD := rfl
@[simp] theorem scrambleOut_BUSY (n : Nat) (s : State) : (s.scrambleOut n).BUSY = s.BUSY := rfl
@[simp] theorem scrambleOut_RESULT (n : Nat) (s : State) : (s.scrambleOut n).RESULT = s.RESULT := rfl
@[simp] theorem scrambleOut_COUNT (n : Nat) (s : State) : (s.scrambleOut n).COUNT = s.COUNT := rfl
@[simp] theorem scrambleOut_VAL_OUT (n : Nat) (s : State) : (s.scrambleOut n).VAL_OUT = s.VAL_OUT := rfl
@[simp] theorem scrambleOut_OUT (n : Nat) (s : State) : (s.scrambleOut n).OUT = overwrite s.OUT (drawBytes s n) := rfl
@[simp] theorem scrambleOut_PENDING (n : Nat) (s : State) : (s.scrambleOut n).PENDING = s.PENDING := rfl
@[simp] theorem scrambleOut_rdata (n : Nat) (s : State) : (s.scrambleOut n).rdata = s.rdata := rfl
@[simp] theorem scrambleOut_draws (n : Nat) (s : State) : (s.scrambleOut n).draws = s.draws + n := rfl
@[simp] theorem scrambleOut_schedule (n : Nat) (s : State) : (s.scrambleOut n).schedule = s.schedule := rfl
@[simp] theorem scrambleOut_inputs (n : Nat) (s : State) : (s.scrambleOut n).inputs = s.inputs := rfl

end

/-! `resetEdge` gives every register its reset value (R160) and leaves the schedule. -/

section

@[simp] theorem resetEdge_IN (s : State) : (resetEdge s).IN = Vector.replicate 19 0 := rfl
@[simp] theorem resetEdge_INLEN (s : State) : (resetEdge s).INLEN = 0 := rfl
@[simp] theorem resetEdge_CAP (s : State) : (resetEdge s).CAP = 0 := rfl
@[simp] theorem resetEdge_VAL_IN (s : State) : (resetEdge s).VAL_IN = 0 := rfl
@[simp] theorem resetEdge_LASTCMD (s : State) : (resetEdge s).LASTCMD = 0 := rfl
@[simp] theorem resetEdge_BUSY (s : State) : (resetEdge s).BUSY = false := rfl
@[simp] theorem resetEdge_RESULT (s : State) : (resetEdge s).RESULT = 0 := rfl
@[simp] theorem resetEdge_COUNT (s : State) : (resetEdge s).COUNT = 0 := rfl
@[simp] theorem resetEdge_VAL_OUT (s : State) : (resetEdge s).VAL_OUT = 0 := rfl
@[simp] theorem resetEdge_OUT (s : State) : (resetEdge s).OUT = Vector.replicate 19 0 := rfl
@[simp] theorem resetEdge_PENDING (s : State) : (resetEdge s).PENDING = none := rfl
@[simp] theorem resetEdge_rdata (s : State) : (resetEdge s).rdata = Config.drawWord s.draws := rfl
@[simp] theorem resetEdge_draws (s : State) : (resetEdge s).draws = s.draws + 1 := rfl
@[simp] theorem resetEdge_schedule (s : State) : (resetEdge s).schedule = s.schedule := rfl

end

/-! The operands of a completing command. -/

section

@[simp] theorem inputs_IN (s : State) : s.inputs.IN = s.IN := rfl
@[simp] theorem inputs_INLEN (s : State) : s.inputs.INLEN = s.INLEN := rfl
@[simp] theorem inputs_CAP (s : State) : s.inputs.CAP = s.CAP := rfl
@[simp] theorem inputs_VAL_IN (s : State) : s.inputs.VAL_IN = s.VAL_IN := rfl

/-- A pending command's operands are its snapshot (R23). -/
theorem operands_of_pending {s : State} {p : PendingCmd} (h : s.PENDING = some p) :
    s.operands = p.operands := by
  simp [State.operands, h]

end

/-- A write to an address other than CMD leaves everything but the four input registers. -/
theorem writeReg_frame (r : Reg) (d : Data) (s : State) (h : r ≠ .CMD) :
    (s.writeReg r d).LASTCMD = s.LASTCMD ∧ (s.writeReg r d).BUSY = s.BUSY ∧
    (s.writeReg r d).RESULT = s.RESULT ∧ (s.writeReg r d).COUNT = s.COUNT ∧
    (s.writeReg r d).VAL_OUT = s.VAL_OUT ∧ (s.writeReg r d).OUT = s.OUT ∧
    (s.writeReg r d).PENDING = s.PENDING ∧ (s.writeReg r d).rdata = s.rdata ∧
    (s.writeReg r d).draws = s.draws ∧ (s.writeReg r d).schedule = s.schedule := by
  cases r <;> simp_all [State.writeReg]

/-- No write touches the block's result registers (R43), the port or the model's own fields. -/
theorem writeReg_outputs (r : Reg) (d : Data) (s : State) :
    (s.writeReg r d).COUNT = s.COUNT ∧ (s.writeReg r d).VAL_OUT = s.VAL_OUT ∧
    (s.writeReg r d).OUT = s.OUT ∧ (s.writeReg r d).schedule = s.schedule := by
  cases r <;> simp [State.writeReg]

end Sys2Proof.Machine
end

