-- ==== Sys2Proof/Laws/Window.lean ====
section
/-! SUPPORT. The byte windows: what `overwrite` leaves at each index. -/

namespace Sys2Proof.Machine

/-- Byte `i` after an overwrite from index `k`: old below `k`, then the new bytes, then old again. -/
theorem overwriteFrom_getElem (win : Window) (k : Nat) (bs : List Byte) (i : Nat) (h : i < 19) :
    (overwriteFrom win k bs)[i] = if i < k then win[i] else (bs[i - k]?).getD win[i] := by
  induction bs generalizing win k with
  | nil => simp [overwriteFrom]
  | cons b rest ih =>
    rw [overwriteFrom, ih]
    by_cases h1 : i < k
    · simp [h1, Nat.lt_succ_of_lt h1, Vector.getElem_setIfInBounds_ne h (Nat.ne_of_gt h1)]
    · by_cases h2 : i = k
      · subst h2
        simp
      · have h3 : i - k = (i - (k + 1)) + 1 := by omega
        have h4 : ¬ i < k + 1 := by omega
        simp [h1, h4, h3, Vector.getElem_setIfInBounds_ne h (Ne.symm h2)]

/-- Byte `i` after an overwrite is the new byte where there is one, else the old byte. -/
@[simp] theorem overwrite_getElem (win : Window) (bs : List Byte) (i : Nat) (h : i < 19) :
    (overwrite win bs)[i] = (bs[i]?).getD win[i] := by
  simp [overwrite, overwriteFrom_getElem]

/-- Overwriting changes no byte at or past the number of bytes written (R112, R117). -/
theorem overwrite_past (win : Window) (bs : List Byte) (i : Nat) (h : i < 19) (hi : bs.length ≤ i) :
    (overwrite win bs)[i] = win[i] := by
  simp [List.getElem?_eq_none hi]

/-- As many bytes are drawn as asked for. -/
@[simp] theorem drawBytes_length (s : State) (n : Nat) : (drawBytes s n).length = n := by
  simp [drawBytes]

/-- The first bytes of an overwritten window are the bytes written. -/
theorem overwrite_take (win : Window) (bs : List Byte) (h : bs.length ≤ 19) :
    (overwrite win bs).toList.take bs.length = bs := by
  apply List.ext_getElem
  · simp [h]
  · intro i h1 h2
    simp [List.getElem?_eq_getElem h2]

end Sys2Proof.Machine
end

