-- ==== Sys2Proof/Laws/Primitives.lean ====
section
/-! SUPPORT. The codec's primitives as arithmetic: widths, the combiner, the scan and the encoder's loop,
one lemma for everything each can do. -/

namespace Sys2Proof.Machine

/-- A decode looks at 19 bytes at most (R7). -/
theorem maxBytes_le (w : Width) : maxBytes w ≤ 19 := by cases w <;> decide

/-- The last group of a scan starts below bit W (R80). -/
theorem lastShift_lt (w : Width) : 7 * (maxBytes w - 1) < bits w := by cases w <;> decide

/-- The scan's bytes hold W bits (R6). -/
theorem bits_le (w : Width) : bits w ≤ 7 * maxBytes w := by cases w <;> decide

/-- `W ≤ 128`. -/
theorem bits_le_128 (w : Width) : bits w ≤ 128 := by cases w <;> decide

/-- A data group as a number. -/
@[simp] theorem data_toNat (b : Byte) : (data b).toNat = b.toNat % 128 := by
  simp [data]

/-- `GROUP` as arithmetic (R73). -/
@[simp] theorem group_toNat (v i : Nat) : (group v i).toNat = v / 2 ^ (7 * i) % 128 := by
  simp [group, Nat.shiftRight_eq_div_pow]

/-- `MAKE_BYTE` as arithmetic (R74). -/
theorem makeByte_toNat (g : BitVec 7) (c : Bool) :
    (makeByte g c).toNat = (if c then 128 else 0) + g.toNat := by
  revert c g; decide

/-- Bit 7 of a byte as arithmetic (R70). -/
theorem cont_eq (b : Byte) : cont b = decide (128 ≤ b.toNat) := by
  revert b; decide

/-- `COMBINE` in two cases (R77), on the exact sum. -/
theorem combine_eq (w : Width) (acc : Nat) (g : BitVec 7) (i : Nat) :
    combine w acc g i =
      if bits w ≤ 7 * i ∨ 2 ^ bits w - 1 < acc + g.toNat * 2 ^ (7 * i) then .error .overflow
      else .ok (acc + g.toNat * 2 ^ (7 * i)) := by
  unfold combine
  rw [Nat.shiftLeft_eq]
  split <;> split <;> simp_all

end Sys2Proof.Machine
end

