-- ==== Sys2Proof/Laws/Decoder.lean ====
section
/-! SUPPORT. What the decoder's scan answers, in terms of the bytes it is given. -/

namespace Sys2Proof.Machine

/-! The value of a byte sequence (R51). -/

section

@[simp] theorem varintValue_nil : varintValue [] = 0 := rfl

/-- The first byte is the lowest group; the rest is shifted by 7. -/
theorem varintValue_cons (b : Byte) (bs : List Byte) :
    varintValue (b :: bs) = b.toNat % 128 + 128 * varintValue bs := by
  have shift : (bs.mapIdx fun i c => c.toNat % 128 * 2 ^ (7 * (i + 1)))
      = (bs.mapIdx fun i c => c.toNat % 128 * 2 ^ (7 * i)).map (128 * ·) := by
    refine List.ext_getElem (by simp) fun i h1 h2 => ?_
    rw [List.getElem_map, List.getElem_mapIdx, List.getElem_mapIdx, Nat.mul_add, Nat.pow_add]
    ring
  simp only [varintValue, List.mapIdx_cons, List.sum_cons, Nat.mul_zero, Nat.pow_zero, Nat.mul_one]
  rw [shift, List.sum_map_mul_left, List.map_id']

/-- `n` groups hold `7n` bits. -/
theorem varintValue_lt (bs : List Byte) : varintValue bs < 2 ^ (7 * bs.length) := by
  induction bs with
  | nil => simp
  | cons b rest ih =>
    rw [varintValue_cons, List.length_cons, Nat.mul_add, Nat.pow_add]
    omega

/-- The value of two sequences joined. -/
theorem varintValue_append (xs ys : List Byte) :
    varintValue (xs ++ ys) = varintValue xs + 2 ^ (7 * xs.length) * varintValue ys := by
  induction xs with
  | nil => simp
  | cons x xs ih =>
    rw [List.cons_append, varintValue_cons, varintValue_cons, ih, List.length_cons, Nat.mul_add 7,
      Nat.pow_add]
    ring

end

/-! The scan. -/

section

@[simp] theorem decodeScan_nil (w : Width) (i acc : Nat) :
    decodeScan w i acc [] = .error .incomplete := rfl

/-- One byte of the scan whose sum fits: it ends at a byte with bit 7 clear, else goes on (R90). -/
theorem decodeScan_cons_ok (w : Width) (i acc : Nat) (b : Byte) (rest : List Byte)
    (hs : 7 * i < bits w) (ht : acc + b.toNat % 128 * 2 ^ (7 * i) ≤ 2 ^ bits w - 1) :
    decodeScan w i acc (b :: rest) =
      if b.getLsbD 7 then decodeScan w (i + 1) (acc + b.toNat % 128 * 2 ^ (7 * i)) rest
      else .ok (i + 1, acc + b.toNat % 128 * 2 ^ (7 * i)) := by
  have h : ¬(bits w ≤ 7 * i ∨ 2 ^ bits w - 1 < acc + (data b).toNat * 2 ^ (7 * i)) := by
    rw [data_toNat]; omega
  rw [decodeScan, combine_eq, if_neg h, data_toNat]
  simp [cont]

/-- One byte of the scan whose sum does not fit (R77, R90): OVERFLOW before termination is looked at. -/
theorem decodeScan_cons_overflow (w : Width) (i acc : Nat) (b : Byte) (rest : List Byte)
    (ht : 2 ^ bits w - 1 < acc + b.toNat % 128 * 2 ^ (7 * i)) :
    decodeScan w i acc (b :: rest) = .error .overflow := by
  rw [decodeScan, combine_eq, data_toNat, if_pos (Or.inr ht)]

/-- Continuation bytes whose sum fits are all taken, and the scan goes on after them. -/
theorem decodeScan_continues (w : Width) (pre rest : List Byte) (i acc : Nat)
    (hc : ∀ b ∈ pre, b.getLsbD 7 = true) (hi : i + pre.length ≤ maxBytes w)
    (hv : acc + varintValue pre * 2 ^ (7 * i) ≤ 2 ^ bits w - 1) :
    decodeScan w i acc (pre ++ rest) =
      decodeScan w (i + pre.length) (acc + varintValue pre * 2 ^ (7 * i)) rest := by
  induction pre generalizing i acc with
  | nil => simp
  | cons b pre ih =>
    have hlast := lastShift_lt w
    have hpow : 2 ^ (7 * (i + 1)) = 128 * 2 ^ (7 * i) := by
      rw [Nat.mul_add, Nat.pow_add]; ring
    have hsum : acc + varintValue (b :: pre) * 2 ^ (7 * i)
        = acc + b.toNat % 128 * 2 ^ (7 * i) + varintValue pre * 2 ^ (7 * (i + 1)) := by
      rw [varintValue_cons, hpow]; ring
    rw [List.length_cons] at hi
    rw [List.cons_append, decodeScan_cons_ok w i acc b _ (by omega) (by omega),
      if_pos (hc b (by simp)), ih (i + 1) _ (fun c hcm => hc c (by simp [hcm])) (by omega) (by omega),
      hsum, List.length_cons]
    congr 1
    omega

/-- Continuation bytes below the last index always fit. -/
theorem varintValue_fits (w : Width) (pre : List Byte) (h : pre.length < maxBytes w) :
    varintValue pre ≤ 2 ^ bits w - 1 := by
  have h1 := varintValue_lt pre
  have h2 : 2 ^ (7 * pre.length) ≤ 2 ^ bits w :=
    Nat.pow_le_pow_right (by omega) (by have := lastShift_lt w; omega)
  omega

/-- A well-formed varint splits into continuation bytes and one last byte. -/
theorem WellFormedVarint.split {w : Width} {bs : List Byte} (h : WellFormedVarint w bs) :
    ∃ (pre : List Byte) (b : Byte), bs = pre ++ [b] ∧ (∀ c ∈ pre, c.getLsbD 7 = true) ∧
      b.getLsbD 7 = false := by
  obtain ⟨h1, h2, h3, h4⟩ := h
  have hne : bs ≠ [] := by rintro rfl; simp at h1
  refine ⟨bs.dropLast, bs.getLast hne, (List.dropLast_append_getLast hne).symm, ?_, ?_⟩
  · intro c hc
    obtain ⟨i, hi, rfl⟩ := List.getElem_of_mem hc
    rw [List.length_dropLast] at hi
    rw [List.getElem_dropLast, h3]
    simp; omega
  · rw [List.getLast_eq_getElem, h3]
    simp; omega

/-- Continuation bytes and a last byte, no longer than the width allows and with a value that fits, are a
well-formed varint (R52). -/
theorem WellFormedVarint.join {w : Width} {pre : List Byte} {b : Byte}
    (hc : ∀ c ∈ pre, c.getLsbD 7 = true) (hb : b.getLsbD 7 = false)
    (hl : pre.length + 1 ≤ maxBytes w) (hv : varintValue (pre ++ [b]) ≤ 2 ^ bits w - 1) :
    WellFormedVarint w (pre ++ [b]) := by
  refine ⟨by simp, by simpa using hl, ?_, hv⟩
  intro i hi
  rw [List.length_append, List.length_singleton] at hi
  by_cases h : i < pre.length
  · rw [List.getElem_append_left h, hc _ (List.getElem_mem h)]
    simp; omega
  · have : i = pre.length := by omega
    subst this
    rw [List.getElem_concat_length rfl, hb]
    simp

/-- The scan accepts a well-formed varint, whatever follows it (R52, R90, R95). -/
theorem decodeScan_wellFormed (w : Width) (bs rest : List Byte) (h : WellFormedVarint w bs) :
    decodeScan w 0 0 (bs ++ rest) = .ok (bs.length, varintValue bs) := by
  obtain ⟨pre, b, rfl, hc, hb⟩ := h.split
  obtain ⟨-, h2, -, h4⟩ := h
  rw [List.length_append, List.length_singleton] at h2
  have h5 := varintValue_fits w pre (by omega)
  have h6 := lastShift_lt w
  rw [List.append_assoc, decodeScan_continues w pre _ 0 0 hc (by omega) (by simpa using h5),
    List.singleton_append]
  rw [varintValue_append, varintValue_cons] at h4 ⊢
  simp only [varintValue_nil, Nat.mul_zero, Nat.add_zero, Nat.zero_add, Nat.pow_zero, Nat.mul_one] at h4 ⊢
  rw [Nat.mul_comm] at h4
  rw [decodeScan_cons_ok w _ _ _ _ (by omega) (by omega), hb]
  simp [Nat.mul_comm]

/-- Every list of bytes is continuation bytes only, or has a first byte with bit 7 clear. -/
theorem continuation_split (bs : List Byte) :
    (∀ b ∈ bs, b.getLsbD 7 = true) ∨
    ∃ (pre : List Byte) (b : Byte) (rest : List Byte), bs = pre ++ b :: rest ∧
      (∀ c ∈ pre, c.getLsbD 7 = true) ∧ b.getLsbD 7 = false := by
  induction bs with
  | nil => simp
  | cons x xs ih =>
    by_cases hx : x.getLsbD 7 = true
    · obtain h | ⟨pre, b, rest, rfl, hc, hb⟩ := ih
      · exact .inl (by simpa [hx] using h)
      · exact .inr ⟨x :: pre, b, rest, rfl, by simpa [hx] using hc, hb⟩
    · exact .inr ⟨[], x, xs, rfl, by simp, by simpa using hx⟩

/-- `DecodeCore` accepts a sequence that begins with a well-formed varint (R52). -/
theorem decodeCore_of_wellFormed {w : Width} {bs input : List Byte} (h : WellFormedVarint w bs)
    (hp : bs <+: input) : decodeCore w input = .ok (bs.length, varintValue bs) := by
  obtain ⟨t, rfl⟩ := hp
  rw [decodeCore, List.take_append, List.take_of_length_le h.2.1, decodeScan_wellFormed w bs _ h]

/-- What `DecodeCore` accepts begins with a well-formed varint, whose length and value it answers. -/
theorem wellFormed_of_decodeCore {w : Width} {input : List Byte} {c v : Nat}
    (h : decodeCore w input = .ok (c, v)) :
    ∃ bs, WellFormedVarint w bs ∧ bs <+: input ∧ c = bs.length ∧ v = varintValue bs := by
  rw [decodeCore] at h
  have hlen : (input.take (maxBytes w)).length ≤ maxBytes w := by simp
  have hpre : input.take (maxBytes w) <+: input := List.take_prefix _ _
  have hlast := lastShift_lt w
  generalize input.take (maxBytes w) = xs at *
  -- continuation bytes `pre`, then `b`: the scan reaches `b` with the value of `pre`
  have reach : ∀ (pre : List Byte) (b : Byte) (rest : List Byte), xs = pre ++ b :: rest →
      (∀ c ∈ pre, c.getLsbD 7 = true) →
      decodeScan w pre.length (varintValue pre) (b :: rest) = .ok (c, v) := by
    rintro pre b rest rfl hc
    have hl : pre.length < maxBytes w := by simp at hlen; omega
    have hv := varintValue_fits w pre hl
    rw [decodeScan_continues w pre _ 0 0 hc (by omega) (by simpa using hv)] at h
    simpa using h
  rcases continuation_split xs with hc | ⟨pre, b, rest, rfl, hc, hb⟩
  · exfalso
    rcases List.eq_nil_or_concat xs with rfl | ⟨ys, b, rfl⟩
    · simp at h
    · rw [List.concat_eq_append] at *
      have hr := reach ys b [] rfl (fun c hm => hc c (by simp [hm]))
      rw [List.length_append, List.length_singleton] at hlen
      by_cases ht : 2 ^ bits w - 1 < varintValue ys + b.toNat % 128 * 2 ^ (7 * ys.length)
      · rw [decodeScan_cons_overflow _ _ _ _ _ ht] at hr
        simp at hr
      · rw [decodeScan_cons_ok _ _ _ _ _ (by omega) (by omega), hc b (by simp)] at hr
        simp at hr
  · have hr := reach pre b rest rfl hc
    have hl : pre.length + 1 ≤ maxBytes w := by simp at hlen; omega
    by_cases ht : 2 ^ bits w - 1 < varintValue pre + b.toNat % 128 * 2 ^ (7 * pre.length)
    · rw [decodeScan_cons_overflow _ _ _ _ _ ht] at hr
      simp at hr
    · have hv : varintValue (pre ++ [b])
          = varintValue pre + b.toNat % 128 * 2 ^ (7 * pre.length) := by
        rw [varintValue_append, varintValue_cons]
        simp [Nat.mul_comm]
      rw [decodeScan_cons_ok _ _ _ _ _ (by omega) (by omega), hb] at hr
      simp only [Bool.false_eq_true, if_false, Except.ok.injEq, Prod.mk.injEq] at hr
      exact ⟨pre ++ [b], .join hc hb hl (by omega), .trans ⟨rest, by simp⟩ hpre, by simp [hr.1], by omega⟩

end

end Sys2Proof.Machine
end

