-- ==== Sys2Proof/Laws/Encoder.lean ====
section
/-! SUPPORT. What the encoder emits. -/

namespace Sys2Proof.Machine

/-- A byte built from a value's low group (R74). -/
theorem makeByte_group (x : Nat) (c : Bool) :
    makeByte (group x 0) c = BitVec.ofNat 8 (x % 128 + (if c then 128 else 0)) := by
  apply BitVec.eq_of_toNat_eq
  rw [makeByte_toNat, group_toNat]
  cases c <;> simp <;> omega

/-- The loop emits what the algorithm emits, given passes enough (R111). -/
theorem encodeLoop_emits (fuel x : Nat) (h0 : x ≠ 0) (h : x < 2 ^ (7 * fuel)) :
    Emits x (encodeLoop fuel x) := by
  induction fuel generalizing x with
  | zero => simp at h; omega
  | succ n ih =>
    have hshift : x >>> 7 = x / 128 := by rw [Nat.shiftRight_eq_div_pow]
    rw [encodeLoop, hshift]
    rw [Nat.mul_add, Nat.pow_add] at h
    split
    · next h1 =>
      rw [makeByte_group]
      exact .more x _ h1 (ih _ h1 (by omega))
    · next h1 =>
      rw [makeByte_group]
      exact .last x h0 (by omega)

/-- `EncodeCore` emits the encoding of a W-bit value (R111). -/
theorem encodeCore_emits (w : Width) (v : Nat) (h : v < 2 ^ bits w) : Emits v (encodeCore w v) := by
  rw [encodeCore]
  split
  · next h0 => exact h0 ▸ .zero
  · next h0 =>
    exact encodeLoop_emits _ _ h0 (Nat.lt_of_lt_of_le h (Nat.pow_le_pow_right (by omega) (bits_le w)))

/-- The operand of an encode has W bits (R110). -/
theorem operandValue_lt (w : Width) (S : Operands) : operandValue w S < 2 ^ bits w :=
  Nat.mod_lt _ (Nat.two_pow_pos _)

/-- Everything about an emitted encoding: continuation bytes, then one last byte that is zero only for the
value zero, and together they have the value (R81, R122). -/
theorem Emits.spec {v : Nat} {e : List Byte} (h : Emits v e) :
    varintValue e = v ∧ ∃ (pre : List Byte) (b : Byte), e = pre ++ [b] ∧
      (∀ c ∈ pre, c.getLsbD 7 = true) ∧ b.getLsbD 7 = false ∧ (b = 0 → v = 0 ∧ pre = []) := by
  induction h with
  | zero => exact ⟨rfl, [], 0, rfl, by simp, rfl, by simp⟩
  | last x h0 h1 =>
    have hx : x < 128 := by omega
    have hb : (BitVec.ofNat 8 (x % 128)).toNat = x := by simp; omega
    refine ⟨by rw [varintValue_cons, hb]; simp; omega, [], _, rfl, by simp, ?_, ?_⟩
    · have := cont_eq (BitVec.ofNat 8 (x % 128))
      rw [cont, hb] at this
      rw [this]; simp; omega
    · intro h
      have := congrArg BitVec.toNat h
      rw [hb] at this
      simp at this; omega
  | more x rest h0 _ ih =>
    obtain ⟨hv, pre, b, rfl, hc, hb, hz⟩ := ih
    have hn : (BitVec.ofNat 8 (x % 128 + 128)).toNat = x % 128 + 128 := by simp; omega
    refine ⟨by rw [varintValue_cons, hv, hn]; omega, _ :: pre, b, rfl, ?_, hb, ?_⟩
    · have := cont_eq (BitVec.ofNat 8 (x % 128 + 128))
      rw [cont, hn] at this
      have h7 : (BitVec.ofNat 8 (x % 128 + 128)).getLsbD 7 = true := by rw [this]; simp
      intro c hm
      rcases List.mem_cons.mp hm with rfl | hm
      · exact h7
      · exact hc c hm
    · intro h
      exact absurd (hz h).1 h0

/-- An emitted encoding has a byte. -/
theorem Emits.pos {v : Nat} {e : List Byte} (h : Emits v e) : 1 ≤ e.length := by
  cases h <;> simp

/-- A value below `2^(7n)` takes at most `n` bytes. -/
theorem Emits.length_le {v : Nat} {e : List Byte} (h : Emits v e) (n : Nat) (hn : 1 ≤ n)
    (hv : v < 2 ^ (7 * n)) : e.length ≤ n := by
  induction h generalizing n with
  | zero => simpa using hn
  | last => simpa using hn
  | more x rest h0 _ ih =>
    obtain ⟨m, rfl⟩ : ∃ m, n = m + 1 := ⟨n - 1, by omega⟩
    rw [Nat.mul_add, Nat.pow_add] at hv
    have hm : 1 ≤ m := by
      rcases Nat.eq_zero_or_pos m with rfl | h
      · simp at hv; omega
      · exact h
    have := ih m hm (by omega)
    simpa using this

/-- An encoding of two bytes or more needs them: the value is at least `2^(7(L-1))`. -/
theorem Emits.le_value {v : Nat} {e : List Byte} (h : Emits v e) (h2 : 2 ≤ e.length) :
    2 ^ (7 * (e.length - 1)) ≤ v := by
  induction h with
  | zero => simp at h2
  | last => simp at h2
  | more x rest h0 hr ih =>
    have hp := hr.pos
    obtain ⟨m, hm⟩ : ∃ m, rest.length = m + 1 := ⟨rest.length - 1, by omega⟩
    rw [List.length_cons, hm, Nat.add_sub_cancel, Nat.mul_add, Nat.pow_add]
    rcases Nat.eq_zero_or_pos m with rfl | h
    · omega
    · have := ih (by omega)
      rw [hm, Nat.add_sub_cancel] at this
      omega

/-- The encoding of a W-bit value has at most `maxBytes(W)` bytes (R111). -/
theorem Emits.length_le_maxBytes {w : Width} {v : Nat} {e : List Byte} (h : Emits v e)
    (hv : v < 2 ^ bits w) : e.length ≤ maxBytes w :=
  h.length_le _ (by cases w <;> decide)
    (Nat.lt_of_lt_of_le hv (Nat.pow_le_pow_right (by omega) (bits_le w)))

/-- The encoder's output is a well-formed varint (R52, R122). -/
theorem Emits.wellFormed {w : Width} {v : Nat} {e : List Byte} (h : Emits v e)
    (hv : v < 2 ^ bits w) : WellFormedVarint w e := by
  have hl := h.length_le_maxBytes hv
  obtain ⟨hval, pre, b, rfl, hc, hb, -⟩ := h.spec
  exact .join hc hb (by simpa using hl) (by omega)

/-- Byte `i` of an emitted encoding: group `i` of the value, with bit 7 set below the last (R81). -/
theorem Emits.getElem {v : Nat} {e : List Byte} (h : Emits v e) (i : Nat) (hi : i < e.length) :
    e[i].toNat = v / 2 ^ (7 * i) % 128 + (if i + 1 < e.length then 128 else 0) := by
  induction h generalizing i with
  | zero => simp at hi; subst hi; simp
  | last x h0 h1 => simp at hi; subst hi; simp; omega
  | more x rest h0 hr ih =>
    cases i with
    | zero =>
      have hp : 0 + 1 < (BitVec.ofNat 8 (x % 128 + 128) :: rest).length := by
        have := hr.pos
        rw [List.length_cons]; omega
      rw [if_pos hp, List.getElem_cons_zero, BitVec.toNat_ofNat]
      simp; omega
    | succ i =>
      have hi' : i < rest.length := by simpa using hi
      rw [List.getElem_cons_succ, ih i hi', Nat.mul_add, Nat.pow_add, Nat.div_div_eq_div_mul,
        Nat.mul_comm (2 ^ (7 * i)), List.length_cons]
      simp

end Sys2Proof.Machine
end

