-- ==== Sys2Proof/Laws/Exec.lean ====
section
/-! SUPPORT. What each shared operation and each meaning can do, said once. -/

namespace Sys2Proof.Machine

/-- A decode command completes: it commits the snapshot and retires (R91, R165). -/
theorem exec_decOf (w : Width) (s : State) :
    exec (decOf w) s = .next (decodeCommit w s.operands s).retire := by
  cases w <;> rfl

/-- An allocating encode command completes (R112, R165). -/
theorem exec_encOf (w : Width) (s : State) :
    exec (encOf w) s = .next (encodeCommit w s.operands s).retire := by
  cases w <;> rfl

/-- An in-place encode command completes (R117, R165). -/
theorem exec_enciOf (w : Width) (s : State) :
    exec (enciOf w) s = .next (encodeIntoCommit w s.operands s).retire := by
  cases w <;> rfl

/-- Every instruction is a command of one of the three kinds, or an access. -/
theorem instr_cases (i : Instr) :
    (∃ w, i = decOf w) ∨ (∃ w, i = encOf w) ∨ (∃ w, i = enciOf w) ∨
    (∃ r d, i = .wr r d) ∨ (∃ r, i = .rd r) := by
  cases i with
  | dec32 => exact .inl ⟨.w32, rfl⟩
  | dec64 => exact .inl ⟨.w64, rfl⟩
  | dec128 => exact .inl ⟨.w128, rfl⟩
  | enc32 => exact .inr (.inl ⟨.w32, rfl⟩)
  | enc64 => exact .inr (.inl ⟨.w64, rfl⟩)
  | enc128 => exact .inr (.inl ⟨.w128, rfl⟩)
  | enci32 => exact .inr (.inr (.inl ⟨.w32, rfl⟩))
  | enci64 => exact .inr (.inr (.inl ⟨.w64, rfl⟩))
  | enci128 => exact .inr (.inr (.inl ⟨.w128, rfl⟩))
  | wr r d => exact .inr (.inr (.inr (.inl ⟨r, d, rfl⟩)))
  | rd r => exact .inr (.inr (.inr (.inr ⟨r, rfl⟩)))

/-- A write on an idle block (R34). -/
theorem exec_wr_idle (r : Reg) (d : Data) (s : State) (h : s.BUSY = false) :
    exec (.wr r d) s = .next (s.writeReg r d).driveUnspecified := by
  simp [exec, execWr, h]

/-- A write on a busy block (R168). -/
theorem exec_wr_busy (r : Reg) (d : Data) (s : State) (h : s.BUSY = true) :
    exec (.wr r d) s = .fault .hostWriteWhileBusy := by
  simp [exec, execWr, h]

/-- A read that hazard H2 does not touch (R35). -/
theorem exec_rd_defined (r : Reg) (s : State) (h : s.BUSY = false ∨ isResultReg r = false) :
    exec (.rd r) s = .next (s.drive (s.readReg r)) := by
  rcases h with h | h <;> simp [exec, execRd, h]

/-- A read under hazard H2 (R169). -/
theorem exec_rd_hazard (r : Reg) (s : State) (h : s.BUSY = true) (hr : isResultReg r = true) :
    exec (.rd r) s = .next s.driveUnspecified := by
  simp [exec, execRd, h, hr]

/-- Everything a decode's commit can do (R91): record a success, or one of two errors. -/
theorem decodeCommit_cases (w : Width) (S : Operands) (s : State) :
    (∃ c v, decodeCore w (inputBytes S) = .ok (c, v) ∧ decodeCommit w S s = s.decoded c v) ∨
    (∃ e, decodeCore w (inputBytes S) = .error e ∧ decodeCommit w S s = s.fail e) := by
  rw [decodeCommit]
  split
  · next c v h => exact .inl ⟨c, v, h, rfl⟩
  · next e h => exact .inr ⟨e, h, rfl⟩

/-- Everything an in-place encode's commit can do (R117): what the allocating form does, or
BUFFER_TOO_SMALL with the buffer's bytes drawn. -/
theorem encodeIntoCommit_cases (w : Width) (S : Operands) (s : State) :
    ((encodeCore w (operandValue w S)).length ≤ S.CAP.toNat ∧
      encodeIntoCommit w S s = encodeCommit w S s) ∨
    (S.CAP.toNat < (encodeCore w (operandValue w S)).length ∧
      encodeIntoCommit w S s = (s.scrambleOut S.CAP.toNat).fail .bufferTooSmall) := by
  rw [encodeIntoCommit]
  split
  · next h => exact .inl ⟨h, rfl⟩
  · next h => exact .inr ⟨by omega, rfl⟩

/-- No error but INCOMPLETE and OVERFLOW comes from a decode (R90, R140). -/
theorem decodeScan_error (w : Width) (i acc : Nat) (bs : List Byte) (e : ErrorKind)
    (h : decodeScan w i acc bs = .error e) : e = .incomplete ∨ e = .overflow := by
  induction bs generalizing i acc with
  | nil => simp at h; exact .inl h.symm
  | cons b rest ih =>
    rw [decodeScan, combine_eq] at h
    by_cases hc : bits w ≤ 7 * i ∨ 2 ^ bits w - 1 < acc + (data b).toNat * 2 ^ (7 * i)
    · rw [if_pos hc] at h
      simp at h
      exact .inr h.symm
    · rw [if_neg hc] at h
      by_cases hb : cont b = true
      · simp only [hb, if_true] at h
        exact ih _ _ h
      · simp [hb] at h

/-- A decode's commit leaves everything but RESULT, COUNT and VAL_OUT (R91). -/
theorem decodeCommit_frame (w : Width) (S : Operands) (s : State) :
    decodeCommit w S s =
      { s with
        RESULT := (decodeCommit w S s).RESULT
        COUNT := (decodeCommit w S s).COUNT
        VAL_OUT := (decodeCommit w S s).VAL_OUT } := by
  rcases decodeCommit_cases w S s with ⟨c, v, -, h⟩ | ⟨e, -, h⟩ <;> rw [h] <;> rfl

/-- An encode's commit leaves everything but RESULT, COUNT and OUT (R112). -/
theorem encodeCommit_frame (w : Width) (S : Operands) (s : State) :
    encodeCommit w S s =
      { s with
        RESULT := resultOk
        COUNT := (encodeCommit w S s).COUNT
        OUT := (encodeCommit w S s).OUT } := rfl

/-! No instruction reads the schedule: whatever it answers, it answers with another schedule too. -/

section

@[simp] theorem setSchedule_operands (r : List Move) (s : State) :
    (s.setSchedule r).operands = s.operands := rfl

@[simp] theorem drawBytes_setSchedule (r : List Move) (s : State) (n : Nat) :
    drawBytes (s.setSchedule r) n = drawBytes s n := rfl

/-- A decode's commit commutes with the schedule. -/
theorem decodeCommit_setSchedule (w : Width) (S : Operands) (r : List Move) (s : State) :
    decodeCommit w S (s.setSchedule r) = (decodeCommit w S s).setSchedule r := by
  simp only [decodeCommit]
  cases decodeCore w (inputBytes S) <;> rfl

/-- An in-place encode's commit commutes with the schedule. -/
theorem encodeIntoCommit_setSchedule (w : Width) (S : Operands) (r : List Move) (s : State) :
    encodeIntoCommit w S (s.setSchedule r) = (encodeIntoCommit w S s).setSchedule r := by
  simp only [encodeIntoCommit]
  split <;> rfl

/-- A write commutes with the schedule. -/
theorem writeReg_setSchedule (reg : Reg) (d : Data) (r : List Move) (s : State) :
    (s.setSchedule r).writeReg reg d = (s.writeReg reg d).setSchedule r := by
  cases reg <;> rfl

/-- Whatever an instruction answers next, it answers with any schedule. -/
theorem exec_setSchedule {i : Instr} {s t : State} (r : List Move) (h : exec i s = .next t) :
    exec i (s.setSchedule r) = .next (t.setSchedule r) := by
  rcases instr_cases i with ⟨w, rfl⟩ | ⟨w, rfl⟩ | ⟨w, rfl⟩ | ⟨reg, d, rfl⟩ | ⟨reg, rfl⟩
  · rw [exec_decOf] at h ⊢
    cases h
    rw [setSchedule_operands, decodeCommit_setSchedule]; rfl
  · rw [exec_encOf] at h ⊢
    cases h; rfl
  · rw [exec_enciOf] at h ⊢
    cases h
    rw [setSchedule_operands, encodeIntoCommit_setSchedule]; rfl
  · cases hb : s.BUSY with
    | true => rw [exec_wr_busy _ _ _ hb] at h; simp at h
    | false =>
      rw [exec_wr_idle _ _ _ hb] at h
      cases h
      rw [exec_wr_idle _ _ _ (by simpa using hb), writeReg_setSchedule]; rfl
  · by_cases hd : s.BUSY = false ∨ isResultReg reg = false
    · rw [exec_rd_defined _ _ hd] at h
      cases h
      rw [exec_rd_defined _ _ (by simpa using hd)]
      cases reg <;> rfl
    · simp at hd
      rw [exec_rd_hazard _ _ hd.1 hd.2] at h
      cases h
      rw [exec_rd_hazard _ _ (by simpa using hd.1) hd.2]; rfl

end

end Sys2Proof.Machine
end

