-- ==== Sys2Proof/Laws/PerInstr.lean ====
section
/-! SUPPORT. The family `CodeFormat`: a command is encoded as a command byte with RSV = 0 and neither
reserved field value (R54 to R56), an access as an access word whose WE bit tells which (R62). -/

open Sys2Proof
open Sys2Proof.Machine

/-- The format of an instruction's word. -/
def Sys2Proof.Laws.CodeFormat.Statement (i : Instr) : Prop :=
  match encode i with
  | .command c =>
    isAccess i = false ∧ rsvField c = 0 ∧ opField c ≠ 3 ∧ wselField c ≠ 3
  | .access a _ => isAccess i = true ∧ (a.getLsbD 6 = true ↔ ∃ r d, i = .wr r d)

namespace Sys2Proof.Laws.CodeFormat

theorem dec32 : Statement .dec32 := ⟨rfl, by decide, by decide, by decide⟩
theorem dec64 : Statement .dec64 := ⟨rfl, by decide, by decide, by decide⟩
theorem dec128 : Statement .dec128 := ⟨rfl, by decide, by decide, by decide⟩
theorem enc32 : Statement .enc32 := ⟨rfl, by decide, by decide, by decide⟩
theorem enc64 : Statement .enc64 := ⟨rfl, by decide, by decide, by decide⟩
theorem enc128 : Statement .enc128 := ⟨rfl, by decide, by decide, by decide⟩
theorem enci32 : Statement .enci32 := ⟨rfl, by decide, by decide, by decide⟩
theorem enci64 : Statement .enci64 := ⟨rfl, by decide, by decide, by decide⟩
theorem enci128 : Statement .enci128 := ⟨rfl, by decide, by decide, by decide⟩

theorem wr (r : Reg) (d : Data) : Statement (.wr r d) := by
  have h : ∀ a : Addr, (1#1 ++ a).getLsbD 6 = true := by decide
  exact ⟨rfl, fun _ => ⟨r, d, rfl⟩, fun _ => h _⟩

theorem rd (r : Reg) : Statement (.rd r) := by
  have h : ∀ a : Addr, (0#1 ++ a).getLsbD 6 = false := by decide
  refine ⟨rfl, fun hc => ?_, fun ⟨_, _, hc⟩ => by simp at hc⟩
  rw [h] at hc
  simp at hc

end Sys2Proof.Laws.CodeFormat
end

