-- ==== Sys2Proof/Laws/Step.lean ====
section
/-! SUPPORT. The step, one equation for each kind of move, and everything a step can be. -/

namespace Sys2Proof.Machine

/-- A clock cycle with `rst` = 1 (R160). -/
theorem step_reset {s : State} {p : HostCycle} {rest : List Move}
    (h : s.schedule = .cycle p :: rest) (hr : p.rst = true) :
    step s = .next (resetEdge (s.setSchedule rest)) := by
  simp [step, fetch, h, hostMove, hr]

/-- A clock cycle with an access (R32). -/
theorem step_access {s : State} {p : HostCycle} {rest : List Move}
    (h : s.schedule = .cycle p :: rest) (hr : p.rst = false) (hq : p.req = true) :
    step s = exec (if p.we then .wr (decodeAddr p.addr) p.wdata else .rd (decodeAddr p.addr))
      (s.setSchedule rest) := by
  simp [step, fetch, h, hostMove, hr, hq, accessWord, decodeAccess_append]

/-- A clock cycle without an access. -/
theorem step_quiet {s : State} {p : HostCycle} {rest : List Move}
    (h : s.schedule = .cycle p :: rest) (hr : p.rst = false) (hq : p.req = false) :
    step s = .next (s.setSchedule rest).driveUnspecified := by
  simp [step, fetch, h, hostMove, hr, hq]

/-- The block's move with a legal command pending (R165). -/
theorem step_complete {s : State} {q : PendingCmd} {rest : List Move} {i : Instr}
    (h : s.schedule = .complete :: rest) (hp : s.PENDING = some q)
    (hd : decode (.command q.command) = .ok i) : step s = exec i (s.setSchedule rest) := by
  simp [step, fetch, h, completeMove, hp, hd]

/-- The block's move with an illegal command pending (R144). -/
theorem step_illegal {s : State} {q : PendingCmd} {rest : List Move} {e : DecodeError}
    (h : s.schedule = .complete :: rest) (hp : s.PENDING = some q)
    (hd : decode (.command q.command) = .error e) :
    step s = .next (illegalCommit (s.setSchedule rest)).retire := by
  simp [step, fetch, h, completeMove, hp, hd]

/-- The block's move with nothing pending is not enabled (R167). -/
theorem step_stutter {s : State} {rest : List Move}
    (h : s.schedule = .complete :: rest) (hp : s.PENDING = none) :
    step s = .next (s.setSchedule rest) := by
  simp [step, fetch, h, completeMove, hp]

/-- With no move scheduled and a command pending, the step is the block's (R167). -/
theorem step_fair {s : State} {q : PendingCmd} (h : s.schedule = []) (hp : s.PENDING = some q) :
    step s = step (s.setSchedule [.complete]) := by
  simp [step, fetch, h, hp, setSchedule_self h]

/-- With no move scheduled and nothing pending, the block is idle (R154). -/
theorem step_idle {s : State} (h : s.schedule = []) (hp : s.PENDING = none) :
    step s = .next s.driveUnspecified := by
  simp [step, fetch, h, hp]

/-- What decodes from a command byte is a command. -/
theorem decode_command_isAccess {c : Byte} {i : Instr} (h : decode (.command c) = .ok i) :
    isAccess i = false := by
  simp only [decode, decodeCommand] at h
  split at h
  · simp at h
  · split at h <;> simp at h <;> subst h <;> rfl

/-- Everything the block's move can be (R165, R144, R167). -/
theorem completeMove_cases (u : State) :
    (u.PENDING = none ∧ completeMove u = .done u) ∨
    (u.PENDING.isSome = true ∧ completeMove u = .done (illegalCommit u).retire) ∨
    (u.PENDING.isSome = true ∧ ∃ i, isAccess i = false ∧ completeMove u = .run i u) := by
  rw [completeMove]
  cases hp : u.PENDING with
  | none => exact .inl ⟨rfl, rfl⟩
  | some q =>
    cases hd : decode (.command q.command) with
    | error e => exact .inr (.inl ⟨rfl, by simp [hd]⟩)
    | ok i => exact .inr (.inr ⟨rfl, i, decode_command_isAccess hd, by simp [hd]⟩)

/-- Everything the host's move can be (R32, R163). -/
theorem hostMove_cases (p : HostCycle) (u : State) :
    hostMove p u = .done (resetEdge u) ∨ hostMove p u = .done u.driveUnspecified ∨
    (∃ r d, hostMove p u = .run (.wr r d) u) ∨ ∃ r, hostMove p u = .run (.rd r) u := by
  rw [hostMove, decodeAccess]
  split
  · exact .inl rfl
  · split
    · split
      · exact .inr (.inr (.inl ⟨_, _, rfl⟩))
      · exact .inr (.inr (.inr ⟨_, rfl⟩))
    · exact .inr (.inl rfl)

/-- A step takes one move and reads no further: what it answers to the move alone, it answers with any
moves after it. -/
theorem step_cons {m : Move} {s t : State} (rest : List Move)
    (h : step (s.setSchedule [m]) = .next t) :
    step (s.setSchedule (m :: rest)) = .next (t.setSchedule rest) := by
  cases m with
  | complete =>
    cases hp : s.PENDING with
    | none =>
      rw [step_stutter (s := s.setSchedule _) (rest := []) rfl hp] at h
      rw [step_stutter (s := s.setSchedule _) (rest := rest) rfl hp]
      cases h; rfl
    | some q =>
      cases hd : decode (.command q.command) with
      | error e =>
        rw [step_illegal (s := s.setSchedule _) (rest := []) rfl hp hd] at h
        rw [step_illegal (s := s.setSchedule _) (rest := rest) rfl hp hd]
        cases h; rfl
      | ok i =>
        rw [step_complete (s := s.setSchedule _) (rest := []) rfl hp hd] at h
        rw [step_complete (s := s.setSchedule _) (rest := rest) rfl hp hd]
        exact exec_setSchedule (s := s.setSchedule []) rest h
  | cycle p =>
    cases hr : p.rst with
    | true =>
      rw [step_reset (s := s.setSchedule _) (rest := []) rfl hr] at h
      rw [step_reset (s := s.setSchedule _) (rest := rest) rfl hr]
      cases h; rfl
    | false =>
      cases hq : p.req with
      | false =>
        rw [step_quiet (s := s.setSchedule _) (rest := []) rfl hr hq] at h
        rw [step_quiet (s := s.setSchedule _) (rest := rest) rfl hr hq]
        cases h; rfl
      | true =>
        rw [step_access (s := s.setSchedule _) (rest := []) rfl hr hq] at h
        rw [step_access (s := s.setSchedule _) (rest := rest) rfl hr hq]
        exact exec_setSchedule (s := s.setSchedule []) rest h

/-- Everything a step can be: with `u` the state with the move taken from the schedule, a reset edge, a
cycle without a read, nothing, an illegal command's completion, an access, or a command's completion. -/
theorem step_cases (s : State) :
    ∃ u : State, u = s.setSchedule s.schedule.tail ∧
      (step s = .next (resetEdge u) ∨ step s = .next u.driveUnspecified ∨ step s = .next u ∨
       (u.PENDING.isSome = true ∧ step s = .next (illegalCommit u).retire) ∨
       (∃ r d, step s = exec (.wr r d) u) ∨ (∃ r, step s = exec (.rd r) u) ∨
       (u.PENDING.isSome = true ∧ ∃ i, isAccess i = false ∧ step s = exec i u)) := by
  have block : ∀ u : State, fetch s = completeMove u →
      step s = .next u ∨ (u.PENDING.isSome = true ∧ step s = .next (illegalCommit u).retire) ∨
      (u.PENDING.isSome = true ∧ ∃ i, isAccess i = false ∧ step s = exec i u) := by
    intro u hf
    rcases completeMove_cases u with ⟨-, h⟩ | ⟨hp, h⟩ | ⟨hp, i, hi, h⟩
    · exact .inl (by simp [step, hf, h])
    · exact .inr (.inl ⟨hp, by simp [step, hf, h]⟩)
    · exact .inr (.inr ⟨hp, i, hi, by simp [step, hf, h]⟩)
  refine ⟨_, rfl, ?_⟩
  cases hs : s.schedule with
  | nil =>
    rw [List.tail_nil, setSchedule_self hs]
    cases hp : s.PENDING with
    | none => exact .inr (.inl (step_idle hs hp))
    | some q =>
      have := block s (by simp [fetch, hs, hp])
      rw [hp] at this
      tauto
  | cons m rest =>
    rw [List.tail_cons]
    cases m with
    | complete =>
      have := block (s.setSchedule rest) (by simp [fetch, hs])
      tauto
    | cycle p =>
      have hf : fetch s = hostMove p (s.setSchedule rest) := by simp [fetch, hs]
      rcases hostMove_cases p (s.setSchedule rest) with h | h | ⟨r, d, h⟩ | ⟨r, h⟩
      · exact .inl (by simp [step, hf, h])
      · exact .inr (.inl (by simp [step, hf, h]))
      · exact .inr (.inr (.inr (.inr (.inl ⟨r, d, by simp [step, hf, h]⟩))))
      · exact .inr (.inr (.inr (.inr (.inr (.inl ⟨r, by simp [step, hf, h]⟩)))))

/-- One step of a run. -/
theorem run_succ {s t : State} (k : Nat) (h : step s = .next t) :
    Host.Core.run Sys2Proof.core (k + 1) s = Host.Core.run Sys2Proof.core k t := by
  have h' : Sys2Proof.core.step s = .next t := h
  simp only [Host.Core.run, h']

end Sys2Proof.Machine
end

