-- ==== Sys2Proof/Tests/Slice0.lean ====
section
/-! SUPPORT. The model's own tests and the witnesses of its statements. Expected results come from the spec:
spec/95_test_vectors.md by the vector's id, or the rule named. -/

open Sys2Proof
open Sys2Proof.Machine

namespace Sys2Proof.Tests

/-! Helpers: a state with given inputs, idle or with a command accepted, and a check of a next state. -/

section

/-- The reset state with the given input registers. -/
def withInputs (bytes : List Byte) (inlen cap : Nat) (val : Data) : State :=
  { State.reset with
    IN := overwrite State.reset.IN bytes
    INLEN := BitVec.ofNat 5 inlen
    CAP := BitVec.ofNat 5 cap
    VAL_IN := val }

/-- The same with command `c` accepted. -/
def accepted (c : Byte) (bytes : List Byte) (inlen cap : Nat) (val : Data) : State :=
  (withInputs bytes inlen cap val).issue c

/-- Does the outcome give a next state that passes the check? -/
def gives (o : Host.Outcome State Fault Refusal) (check : State → Bool) : Bool :=
  match o with
  | .next t => check t
  | .fault _ => false
  | .refused _ => false

/-- Is the outcome the busy-write fault? -/
def faults (o : Host.Outcome State Fault Refusal) : Bool :=
  match o with
  | .next _ => false
  | .fault f => f == .hostWriteWhileBusy
  | .refused _ => false

/-- A clock cycle that presents a write. -/
def writeCycle (a : Addr) (d : Data) : Move :=
  .cycle { rst := false, req := true, we := true, addr := a, wdata := d }

/-- A clock cycle that presents a read. -/
def readCycle (a : Addr) : Move :=
  .cycle { rst := false, req := true, we := false, addr := a, wdata := 0 }

/-- A clock cycle with `rst` = 1 and a write presented. -/
def resetCycle : Move :=
  .cycle { rst := true, req := true, we := true, addr := 0x13, wdata := 7 }

end

/-! WellFormed: its one check refuses an address that has a register (R36). -/

section

theorem test_wellFormed_refuses_register_as_reserved :
    (Instr.wr (.reserved 0x00) 1).WellFormed = false ∧ (Instr.rd (.reserved 0x19)).WellFormed = false ∧
    (Instr.rd (.reserved 0x20)).WellFormed = false ∧ (Instr.wr (.reserved 0x32) 1).WellFormed = false := by
  decide

theorem test_wellFormed_takes_reserved_addresses :
    (Instr.rd (.reserved 0x1A)).WellFormed = true ∧ (Instr.wr (.reserved 0x1F) 1).WellFormed = true ∧
    (Instr.wr (.reserved 0x33) 1).WellFormed = true ∧ (Instr.rd (.reserved 0x3F)).WellFormed = true := by
  decide

theorem test_loadIn_refuses_twenty_bytes :
    pseudoWellFormed (.loadIn (List.replicate 20 0)) = false ∧
    pseudoWellFormed (.loadIn (List.replicate 19 0)) = true := by decide

end

/-! Decode: each row's word bit by bit, RSV WSEL OP for a command (R54 to R57), WE ADDR for an access
(R62). -/

section

theorem test_decode_dec32 : decode (.command (0b0000#4 ++ 0b00#2 ++ 0b00#2)) = .ok .dec32 := by rfl
theorem test_decode_dec64 : decode (.command (0b0000#4 ++ 0b01#2 ++ 0b00#2)) = .ok .dec64 := by rfl
theorem test_decode_dec128 : decode (.command (0b0000#4 ++ 0b10#2 ++ 0b00#2)) = .ok .dec128 := by rfl
theorem test_decode_enc32 : decode (.command (0b0000#4 ++ 0b00#2 ++ 0b01#2)) = .ok .enc32 := by rfl
theorem test_decode_enc64 : decode (.command (0b0000#4 ++ 0b01#2 ++ 0b01#2)) = .ok .enc64 := by rfl
theorem test_decode_enc128 : decode (.command (0b0000#4 ++ 0b10#2 ++ 0b01#2)) = .ok .enc128 := by rfl
theorem test_decode_enci32 : decode (.command (0b0000#4 ++ 0b00#2 ++ 0b10#2)) = .ok .enci32 := by rfl
theorem test_decode_enci64 : decode (.command (0b0000#4 ++ 0b01#2 ++ 0b10#2)) = .ok .enci64 := by rfl
theorem test_decode_enci128 : decode (.command (0b0000#4 ++ 0b10#2 ++ 0b10#2)) = .ok .enci128 := by rfl
theorem test_decode_wr : decode (.access (0b1#1 ++ 0b010011#6) 5) = .ok (.wr .INLEN 5) := by rfl
theorem test_decode_rd : decode (.access (0b0#1 ++ 0b110010#6) 5) = .ok (.rd (.OUT 18)) := by rfl

/-- IC-1 to IC-13. -/
theorem test_decode_illegal :
    ∀ c ∈ [0x03#8, 0x07, 0x0B, 0x0C, 0x0D, 0x0E, 0x0F, 0x10, 0x14, 0x40, 0x80, 0x81, 0xFF],
      (match decode (.command c) with | .ok _ => false | .error e => e == .illegalCommand c) = true := by
  decide

/-- R58: a command value decodes exactly when it is one of the nine, so 247 of the 256 are illegal. -/
theorem test_decode_illegal_count :
    (∀ c : Byte, (match decode (.command c) with | .ok _ => true | .error _ => false) =
      legalCommands.contains c) ∧
    legalCommands.length = 9 ∧ legalCommands.Nodup := by
  refine ⟨?_, rfl, by decide⟩
  decide

/-- R33: the map at the edges of its ranges. -/
theorem test_decodeAddr_edges :
    decodeAddr 0x00 = .IN 0 ∧ decodeAddr 0x12 = .IN 18 ∧ decodeAddr 0x13 = .INLEN ∧
    decodeAddr 0x19 = .VAL_OUT ∧ decodeAddr 0x1A = .reserved 0x1A ∧ decodeAddr 0x1F = .reserved 0x1F ∧
    decodeAddr 0x20 = .OUT 0 ∧ decodeAddr 0x32 = .OUT 18 ∧ decodeAddr 0x33 = .reserved 0x33 ∧
    decodeAddr 0x3F = .reserved 0x3F := by decide

/-- The table's rows as bare words (log entry 5). -/
theorem test_decodeTableWord :
    decodeTableWord 8 0x00 = some .dec32 ∧ decodeTableWord 8 0x0A = some .enci128 ∧
    decodeTableWord 8 0x56 = some (.wr .CMD 0) ∧ decodeTableWord 8 0x17 = some (.rd .STATUS) ∧
    decodeTableWord 7 0x00 = some (.rd (.IN 0)) ∧ decodeTableWord 8 0xFF = none := by decide

end

/-! The primitives (vectors P-1 to P-56). -/

section

/-- P-4, P-6, P-7. -/
theorem test_byte_fields :
    cont 0xAC = true ∧ data 0xAC = 0x2C ∧ makeByte 0x2C true = 0xAC ∧ makeByte 0x02 false = 0x02 := by
  decide

/-- P-13, P-15, P-22, P-23. -/
theorem test_group_more :
    group (2 ^ 128 - 1) 18 = 0x03 ∧ group 0xFFFFFFFF 4 = 0x0F ∧
    more (2 ^ 128 - 1) 17 = true ∧ more (2 ^ 128 - 1) 18 = false := by decide

/-- P-24, P-26, P-27, P-40, P-41. -/
theorem test_encLen :
    encLen 0 = 1 ∧ encLen 127 = 1 ∧ encLen 128 = 2 ∧ encLen (2 ^ 126 - 1) = 18 ∧
    encLen (2 ^ 126) = 19 := by decide

/-- P-45, P-46, P-48, P-55, P-56. -/
theorem test_combine :
    combine .w32 5 0x7F 1 = .ok 16261 ∧ combine .w32 (2 ^ 28 - 1) 0x0F 4 = .ok (2 ^ 32 - 1) ∧
    combine .w32 0 0x10 4 = .error .overflow ∧
    combine .w128 (2 ^ 126 - 1) 0x03 18 = .ok (2 ^ 128 - 1) ∧
    combine .w32 0 0x01 5 = .error .overflow := by
  refine ⟨rfl, rfl, rfl, rfl, rfl⟩

end

/-! One instruction, one step. -/

section

/-- D32-21: bytes after the varint are not read. -/
theorem test_dec32_ok :
    gives (exec .dec32 (accepted 0x00 [0xAC, 0x02, 0x55, 0x66] 4 0 0))
      (fun t => t.RESULT == 1 && t.COUNT == 2 && t.VAL_OUT == 300 && !t.BUSY && t.PENDING.isNone) = true := by
  decide

/-- D32-18: overflow is looked at before termination. -/
theorem test_dec32_overflow :
    gives (exec .dec32 { accepted 0x00 [0xFF, 0xFF, 0xFF, 0xFF, 0xFF] 5 0 0 with COUNT := 9 })
      (fun t => t.RESULT == 3 && t.COUNT == 9 && t.VAL_OUT == 0) = true := by decide

/-- D64-6: a value DEC32 rejects. -/
theorem test_dec64_ok :
    gives (exec .dec64 (accepted 0x04 [0xFF, 0xFF, 0xFF, 0xFF, 0x1F] 5 0 0))
      (fun t => t.RESULT == 1 && t.COUNT == 5 && t.VAL_OUT == 0x1FFFFFFFF) = true := by decide

/-- D64-10: ten continuation bytes. -/
theorem test_dec64_incomplete :
    gives (exec .dec64 (accepted 0x04 (List.replicate 9 0xFF ++ [0x81, 0x00]) 11 0 0))
      (fun t => t.RESULT == 2 && t.COUNT == 0) = true := by decide

/-- D128-11: the maximum, with INLEN above 19. -/
theorem test_dec128_max :
    gives (exec .dec128 (accepted 0x08 (List.replicate 18 0xFF ++ [0x03]) 31 0 0))
      (fun t => t.RESULT == 1 && t.COUNT == 19 && t.VAL_OUT == BitVec.allOnes 128) = true := by decide

/-- D128-4: the last group is 4. -/
theorem test_dec128_overflow :
    gives (exec .dec128 (accepted 0x08 (List.replicate 18 0xFF ++ [0x04]) 19 0 0))
      (fun t => t.RESULT == 3 && t.COUNT == 0) = true := by decide

/-- E32-13: bit 32 of VAL_IN is ignored. -/
theorem test_enc32_truncates :
    gives (exec .enc32 (accepted 0x01 [] 0 0 0x100000005))
      (fun t => t.RESULT == 1 && t.COUNT == 1 && t.OUT[0] == 0x05 && t.OUT[1] == 0) = true := by decide

/-- E32-5, and OUT past the encoding stays. -/
theorem test_enc32_keeps_rest :
    gives (exec .enc32 { accepted 0x01 [] 0 0 300 with OUT := Vector.replicate 19 0x77 })
      (fun t => t.COUNT == 2 && t.OUT.toList.take 3 == [0xAC, 0x02, 0x77]) = true := by decide

/-- E64-8: the smallest ten-byte value. -/
theorem test_enc64_ten_bytes :
    gives (exec .enc64 (accepted 0x05 [] 0 0 0x8000000000000000))
      (fun t => t.COUNT == 10 && t.OUT.toList.take 10 == List.replicate 9 0x80 ++ [0x01]) = true := by
  decide

/-- E64-10: bit 64 of VAL_IN is ignored. -/
theorem test_enc64_truncates :
    gives (exec .enc64 (accepted 0x05 [] 0 0 0x10000000000000001))
      (fun t => t.COUNT == 1 && t.OUT[0] == 0x01) = true := by decide

/-- E128-8: mixed bits. -/
theorem test_enc128_mixed :
    gives (exec .enc128 (accepted 0x09 [] 0 0 0x123456789ABCDEF0123456789ABCDEF))
      (fun t => t.COUNT == 18 && t.OUT.toList.take 18 ==
        [0xEF, 0x9B, 0xAF, 0xCD, 0xF8, 0xAC, 0xD1, 0x91, 0x81, 0xDE, 0xB7, 0xDE, 0x9A, 0xF1, 0xD9, 0xA2,
         0xA3, 0x02]) = true := by decide

/-- E128-1: zero. -/
theorem test_enc128_zero :
    gives (exec .enc128 { accepted 0x09 [] 0 0 0 with OUT := Vector.replicate 19 0x77 })
      (fun t => t.RESULT == 1 && t.COUNT == 1 && t.OUT.toList.take 2 == [0x00, 0x77]) = true := by decide

/-- EI-1: too small; OUT[0] is a draw, the rest stays. -/
theorem test_enci32_too_small :
    gives (exec .enci32 { accepted 0x02 [] 0 1 300 with COUNT := 9 })
      (fun t => t.RESULT == 4 && t.COUNT == 9 && t.OUT[1] == 0 && t.OUT[18] == 0) = true := by decide

/-- EI-8: CAP above 19. -/
theorem test_enci32_large_cap :
    gives (exec .enci32 (accepted 0x02 [] 0 31 0xFFFFFFFF))
      (fun t => t.RESULT == 1 && t.COUNT == 5 &&
        t.OUT.toList.take 6 == [0xFF, 0xFF, 0xFF, 0xFF, 0x0F, 0x00]) = true := by decide

/-- EI-12: nine bytes fit nine. -/
theorem test_enci64_fits :
    gives (exec .enci64 (accepted 0x06 [] 0 9 0x7FFFFFFFFFFFFFFF))
      (fun t => t.RESULT == 1 && t.COUNT == 9 && t.OUT[8] == 0x7F) = true := by decide

/-- EI-10: ten bytes do not. -/
theorem test_enci64_too_small :
    gives (exec .enci64 (accepted 0x06 [] 0 9 0xFFFFFFFFFFFFFFFF))
      (fun t => t.RESULT == 4 && t.COUNT == 0 && t.OUT[9] == 0) = true := by decide

/-- EI-16. -/
theorem test_enci128_fits :
    gives (exec .enci128 (accepted 0x0A [] 0 19 (BitVec.allOnes 128)))
      (fun t => t.RESULT == 1 && t.COUNT == 19 && t.OUT[17] == 0xFF && t.OUT[18] == 0x03) = true := by
  decide

/-- EI-15: OUT[18] is past CAP. -/
theorem test_enci128_too_small :
    gives (exec .enci128 (accepted 0x0A [] 0 18 (BitVec.allOnes 128)))
      (fun t => t.RESULT == 4 && t.COUNT == 0 && t.OUT[18] == 0) = true := by decide

/-- HP-1: bits above the width are ignored. -/
theorem test_wr_truncates :
    gives (exec (.wr .INLEN 0xFF) State.reset) (fun t => t.INLEN == 0x1F) = true := by decide

/-- RH-9: a write while busy, even to a reserved address, is the fault. -/
theorem test_wr_busy_faults :
    faults (exec (.wr (.reserved 0x1A) 1) (accepted 0x00 [] 0 0 0)) = true := by decide

/-- RH-5: STATUS while busy. -/
theorem test_rd_status_busy :
    gives (exec (.rd .STATUS) (accepted 0x01 [] 0 0 0)) (fun t => t.rdata == 0x80 && t.BUSY) = true := by
  decide

/-- P4's tenth access: VAL_OUT reads whole. -/
theorem test_rd_val_out :
    gives (exec (.rd .VAL_OUT) { State.reset with VAL_OUT := 300 })
      (fun t => t.rdata == 300 && t.VAL_OUT == 300) = true := by decide

end

/-! The step: illegal commands, reset, fairness, and a table word as the first instruction. -/

section

/-- IC-1: COUNT and VAL_OUT stay. -/
theorem test_step_illegal :
    gives (step { accepted 0x03 [] 0 0 0 with COUNT := 2, VAL_OUT := 300, schedule := [.complete] })
      (fun t => t.RESULT == 5 && t.COUNT == 2 && t.VAL_OUT == 300 && t.LASTCMD == 0x03 && !t.BUSY)
      = true := by decide

/-- RH-3 and RH-4: reset while a failing ENCI32 is pending, with a write presented. -/
theorem test_step_reset_discards :
    gives (step { accepted 0x02 [] 0 4 0xFFFFFFFF with schedule := [resetCycle] })
      (fun t => t.OUT == Vector.replicate 19 0 && t.STATUS == 0 && t.PENDING == none && t.INLEN == 0 &&
        t.VAL_IN == 0) = true := by decide

/-- RH-6: with latency 0 a command completes at its acceptance edge. -/
theorem test_clockEdge_latency_zero :
    (match clockEdge (fun _ _ => 0)
        { rst := false, req := true, we := true, addr := 0x16, wdata := 0x01 }
        { core := State.reset, elapsed := 0 } with
      | .next u => u.core.STATUS == 0x01 && u.core.OUT[0] == 0x00 && u.core.COUNT == 1
      | .fault _ => false
      | .refused _ => false) = true := by decide

/-- A command's table word runs as the first step after reset: DEC32 on empty input (D32-1). -/
theorem test_withFetchWord_command :
    gives (step (State.reset.withFetchWord 8 0x00)) (fun t => t.RESULT == 2 && t.LASTCMD == 0) = true := by
  decide

/-- An access's table word runs as the first step after reset: `rd CMD` (HP-9). -/
theorem test_withFetchWord_access :
    gives (step (State.reset.withFetchWord 8 0x16)) (fun t => t.rdata == 0 && !t.BUSY) = true := by
  decide

end

/-! Witnesses: for each statement with hypotheses, a concrete state and operands that meet them together,
and for each clause at a boundary of its range. -/

section

/-- A busy state that meets the invariant. -/
theorem busy_inv (c : Byte) : (accepted c [] 0 0 0).Inv :=
  ⟨rfl, fun _ h => (by cases h; exact ⟨rfl, rfl⟩), fun _ => rfl, (by decide : (0 : BitVec 3).toNat ≤ 5),
    (by decide : (0 : BitVec 5).toNat ≤ 19), fun h => (by cases h)⟩

/-- An idle state after a success that meets the invariant. -/
theorem idle_inv : ({ State.reset with RESULT := 1, COUNT := 2 } : State).Inv :=
  ⟨rfl, fun _ h => (by cases h), fun h => (by cases h), by decide, by decide, fun _ => by decide⟩

/-- ResetEdgeGivesResetValues, with a command pending. -/
theorem witness_ResetEdgeGivesResetValues :
    ∃ (s : State) (p : HostCycle) (rest : List Move),
      s.schedule = .cycle p :: rest ∧ p.rst = true ∧ s.BUSY = true :=
  ⟨{ accepted 0x00 [] 0 0 0 with schedule := [resetCycle] }, _, _, rfl, rfl, rfl⟩

/-- StepRunsDecodedInstruction, its three clauses. -/
theorem witness_StepRunsDecodedInstruction :
    (∃ (s : State) (p : HostCycle) (rest : List Move) (i : Instr),
      s.schedule = .cycle p :: rest ∧ p.rst = false ∧ p.req = true ∧
      decode (.access (BitVec.ofBool p.we ++ p.addr) p.wdata) = .ok i) ∧
    (∃ (s : State) (q : PendingCmd) (rest : List Move) (i : Instr),
      s.schedule = .complete :: rest ∧ s.PENDING = some q ∧ decode (.command q.command) = .ok i) ∧
    (∃ (s : State) (q : PendingCmd) (i : Instr),
      s.schedule = [] ∧ s.PENDING = some q ∧ decode (.command q.command) = .ok i) :=
  ⟨⟨{ State.reset with schedule := [writeCycle 0x13 3] }, _, _, _, rfl, rfl, rfl, rfl⟩,
    ⟨{ accepted 0x05 [] 0 0 0 with schedule := [.complete] }, _, _, _, rfl, rfl, rfl⟩,
    ⟨accepted 0x0A [] 0 0 0, _, _, rfl, rfl, rfl⟩⟩

/-- IdleKeepsEveryRegister, both ways to present nothing. -/
theorem witness_IdleKeepsEveryRegister :
    (∃ s : State, s.PENDING = none ∧ s.schedule = []) ∧
    ∃ (s : State) (p : HostCycle) (rest : List Move), s.PENDING = none ∧
      s.schedule = .cycle p :: rest ∧ p.rst = false ∧ p.req = false :=
  ⟨⟨State.reset, rfl, rfl⟩,
    ⟨{ State.reset with
        schedule := [.cycle { rst := false, req := false, we := true, addr := 0, wdata := 1 }] },
      _, _, rfl, rfl, rfl, rfl⟩⟩

/-- CommandMapIsTheNineValues: a value outside the map, next to one inside. -/
theorem witness_CommandMapIsTheNineValues : (0x0B : Byte) ∉ legalCommands ∧ (0x0A : Byte) ∈ legalCommands := by
  decide

/-- DecodeEncodeRoundTrip: an access and a command. -/
theorem witness_DecodeEncodeRoundTrip :
    (Instr.wr (.reserved 0x3F) 1).WellFormed = true ∧ Instr.enci128.WellFormed = true := by decide

/-- DecodedWordIsItsEncoding: both formats. -/
theorem witness_DecodedWordIsItsEncoding :
    decode (.command 0x0A) = .ok .enci128 ∧ decode (.access 0x7F 1) = .ok (.wr (.reserved 0x3F) 1) ∧
    decode (.access 0x32 1) = .ok (.rd (.OUT 18)) := ⟨rfl, rfl, rfl⟩

/-- HostWriteAtEveryAddress, idle and busy. -/
theorem witness_HostWriteAtEveryAddress :
    State.reset.BUSY = false ∧ (accepted 0x00 [] 0 0 0).BUSY = true := ⟨rfl, rfl⟩

/-- HostReadAtEveryAddress: the hazard's edges while busy, their neighbours, and idle. -/
theorem witness_HostReadAtEveryAddress :
    (accepted 0x00 [] 0 0 0).BUSY = true ∧ State.reset.BUSY = false ∧
    (0x20 ≤ (0x20 : Addr).toNat ∧ (0x20 : Addr).toNat ≤ 0x32) ∧
    (0x20 ≤ (0x32 : Addr).toNat ∧ (0x32 : Addr).toNat ≤ 0x32) ∧
    ¬(0x20 ≤ (0x33 : Addr).toNat ∧ (0x33 : Addr).toNat ≤ 0x32) ∧
    ¬(0x20 ≤ (0x1F : Addr).toNat ∧ (0x1F : Addr).toNat ≤ 0x32) := by decide

/-- ReservedAddressesReadZeroIgnoreWrites: the edges of both ranges, on an idle block. -/
theorem witness_ReservedAddressesReadZeroIgnoreWrites :
    (∀ a ∈ [0x1A#6, 0x1F, 0x33, 0x3F], (0x1A ≤ a.toNat ∧ a.toNat ≤ 0x1F) ∨ 0x33 ≤ a.toNat) ∧
    State.reset.BUSY = false := by decide

/-- CommandAcceptance: idle and busy. -/
theorem witness_CommandAcceptance : State.reset.BUSY = false ∧ (accepted 0x00 [] 0 0 0).BUSY = true := ⟨rfl, rfl⟩

/-- WritesIdempotentReadsRepeatable: an idle state with each input register stored to (IN at both ends, the
data wider than the register), and a busy one for the reads H2 does not touch. -/
theorem witness_WritesIdempotentReadsRepeatable :
    (∀ k ∈ [(0 : Fin 19), 18], ∃ (s t : State) (r : Reg) (d : Data), s.BUSY = false ∧ r = .IN k ∧
      t = { s with IN := s.IN.set k.val (d.setWidth 8) k.isLt } ∧ d = 0x1FF ∧ t.IN[k] = 0xFF) ∧
    (∃ (s t : State) (r : Reg) (d : Data), s.BUSY = false ∧ r = .INLEN ∧
      t = { s with INLEN := d.setWidth 5 } ∧ d = 0x3F ∧ t.INLEN = 31) ∧
    (∃ (s t : State) (r : Reg) (d : Data), s.BUSY = false ∧ r = .CAP ∧
      t = { s with CAP := d.setWidth 5 } ∧ d = 0x21 ∧ t.CAP = 1) ∧
    (∃ (s t : State) (r : Reg) (d : Data), s.BUSY = false ∧ r = .VAL_IN ∧
      t = { s with VAL_IN := d } ∧ d = -1 ∧ t.VAL_IN = -1) ∧
    (accepted 0x00 [] 0 0 0).BUSY = true ∧ isResultReg (.IN 18) = false := by
  refine ⟨fun k _ => ⟨State.reset, _, _, 0x1FF, rfl, rfl, rfl, rfl, ?_⟩,
    ⟨State.reset, _, _, 0x3F, rfl, rfl, rfl, rfl, by decide⟩,
    ⟨State.reset, _, _, 0x21, rfl, rfl, rfl, rfl, by decide⟩,
    ⟨State.reset, _, _, -1, rfl, rfl, rfl, rfl, rfl⟩, rfl, rfl⟩
  simp

/-- DefinedReadsWhileBusy. -/
theorem witness_DefinedReadsWhileBusy : ∃ (s : State) (p : PendingCmd), s.Inv ∧ s.PENDING = some p :=
  ⟨accepted 0x09 [] 0 0 0, _, busy_inv _, rfl⟩

/-- The statements about a pending command (DecodeRunsTheScan, EncodeWritesEmittedBytes, EncodeClosedForm,
EncodingIsUniqueMinimal). -/
theorem witness_pending_command : ∃ (s : State) (p : PendingCmd), s.PENDING = some p :=
  ⟨accepted 0x01 [0xAC, 0x02] 2 0 300, _, rfl⟩

/-- DecodeAcceptsWellFormedVarints, accepting: the longest varint of each width, as the whole input. -/
theorem witness_DecodeAccepts :
    (WellFormedVarint .w32 (List.replicate 4 0xFF ++ [0x0F]) ∧
      (List.replicate 4 0xFF ++ [0x0F]) <+: (withInputs (List.replicate 4 0xFF ++ [0x0F]) 5 0 0).IN.toList.take 5) ∧
    WellFormedVarint .w64 (List.replicate 9 0xFF ++ [0x01]) ∧
    WellFormedVarint .w128 (List.replicate 18 0xFF ++ [0x03]) ∧
    WellFormedVarint .w32 [0x80, 0x00] := by
  unfold WellFormedVarint
  decide

/-- DecodeAcceptsWellFormedVarints, rejecting: the empty input. -/
theorem witness_DecodeRejects (w : Width) :
    ¬∃ bs : List Byte, WellFormedVarint w bs ∧ bs <+: (withInputs [] 0 0 0).IN.toList.take 0 := by
  rintro ⟨bs, ⟨h, -⟩, hp⟩
  rw [List.take_zero, List.prefix_nil] at hp
  subst hp
  simp at h

/-- DecodeErrorCauses: at the last byte of each width, OVERFLOW at the limit (D32-17, D64-4, D128-4),
INCOMPLETE just below it (D32-19, D64-10, D128-6), and OK (D32-13). -/
theorem witness_DecodeErrorCauses :
    OverflowInput .w32 (withInputs (List.replicate 4 0x80 ++ [0x10]) 5 0 0).inputs ∧
    OverflowInput .w64 (withInputs (List.replicate 9 0xFF ++ [0x02]) 10 0 0).inputs ∧
    OverflowInput .w128 (withInputs (List.replicate 18 0xFF ++ [0x04]) 19 0 0).inputs ∧
    (¬OverflowInput .w32 (withInputs (List.replicate 4 0xFF ++ [0x8F]) 6 0 0).inputs ∧
      NoTerminator .w32 (withInputs (List.replicate 4 0xFF ++ [0x8F]) 6 0 0).inputs) ∧
    (¬OverflowInput .w64 (withInputs (List.replicate 9 0xFF ++ [0x81]) 11 0 0).inputs ∧
      NoTerminator .w64 (withInputs (List.replicate 9 0xFF ++ [0x81]) 11 0 0).inputs) ∧
    (¬OverflowInput .w128 (withInputs (List.replicate 18 0xFF ++ [0x83]) 19 0 0).inputs ∧
      NoTerminator .w128 (withInputs (List.replicate 18 0xFF ++ [0x83]) 19 0 0).inputs) ∧
    ¬OverflowInput .w32 (withInputs (List.replicate 4 0xFF ++ [0x0F]) 5 0 0).inputs ∧
    ¬NoTerminator .w32 (withInputs (List.replicate 4 0xFF ++ [0x0F]) 5 0 0).inputs := by
  unfold OverflowInput NoTerminator
  refine ⟨by decide, by decide, by decide, ⟨by decide, by decide⟩, ⟨by decide, by decide⟩,
    ⟨by decide, by decide⟩, by decide, by decide⟩

/-- EncodeInPlaceChecksCapacity: 300 needs two bytes, so CAP = 2 fits and CAP = 1 does not. -/
theorem witness_EncodeInPlaceChecksCapacity :
    Emits (300 % 2 ^ bits .w32) [0xAC, 0x02] ∧
    [0xAC#8, 0x02].length ≤ (accepted 0x02 [] 0 2 300).operands.CAP.toNat ∧
    (accepted 0x02 [] 0 1 300).operands.CAP.toNat < [0xAC#8, 0x02].length :=
  ⟨.more 300 [0x02] (by decide) (.last 2 (by decide) (by decide)), by decide, by decide⟩

/-- InPlaceFormAgreesWithAllocating: 127 in one byte. -/
theorem witness_InPlaceFormAgreesWithAllocating :
    ∃ (s : State) (p : PendingCmd), s.PENDING = some p ∧ 1 ≤ p.operands.CAP.toNat ∧
      p.operands.VAL_IN.toNat % 2 ^ bits .w32 < 2 ^ (7 * p.operands.CAP.toNat) :=
  ⟨accepted 0x02 [] 0 1 127, _, rfl, by decide, by decide⟩

/-- EncodeDecodeRoundTrip: a state whose pending input holds the encoding of another's operand. -/
theorem witness_EncodeDecodeRoundTrip :
    ∃ (s t u : State) (p q : PendingCmd), s.PENDING = some p ∧ exec .enc32 s = .next t ∧
      u.PENDING = some q ∧
      (∀ (i : Nat) (h : i < 19), i < t.COUNT.toNat → q.operands.IN[i] = t.OUT[i]) ∧
      t.COUNT.toNat ≤ q.operands.INLEN.toNat :=
  ⟨accepted 0x01 [] 0 0 300, _, accepted 0x00 [0xAC, 0x02, 0x55] 3 0 0, _, _, rfl, rfl, rfl,
    by decide, by decide⟩

/-- DecodeWidthsNest: 300 at width 32 (WN-1). -/
theorem witness_DecodeWidthsNest :
    ∃ (s t : State) (p : PendingCmd), s.PENDING = some p ∧ bits .w32 ≤ bits .w64 ∧
      exec .dec32 s = .next t ∧ t.RESULT = 1 :=
  ⟨accepted 0x00 [0xAC, 0x02] 2 0 0, _, _, rfl, by decide, rfl, rfl⟩

/-- DecodeReadsNothingPastItsEnd: stops by success with k = 2, and by overflow with k = 5. -/
theorem witness_DecodeReadsNothingPastItsEnd :
    (∃ t, exec .dec32 (accepted 0x00 [0xAC, 0x02, 0x55] 3 0 0) = .next t ∧ t.RESULT = 1 ∧
      t.COUNT.toNat ≤ 2) ∧
    (∀ (i : Nat) (h : i < 19), i < 2 →
      (accepted 0x00 [0xAC, 0x02, 0x55] 3 0 0).operands.IN[i] = (accepted 0x00 [0xAC, 0x02] 2 0 0).operands.IN[i]) ∧
    (∃ t, exec .dec32 (accepted 0x00 (List.replicate 4 0xFF ++ [0x10]) 5 0 0) = .next t ∧ t.RESULT = 3 ∧
      maxBytes .w32 ≤ 5) :=
  ⟨⟨_, rfl, by decide, by decide⟩, by decide, ⟨_, rfl, by decide, by decide⟩⟩

/-- CommandReadsOnlyItsOperands: two states that differ in what no command of each kind reads. -/
theorem witness_CommandReadsOnlyItsOperands :
    ∃ (s s' : State) (p p' : PendingCmd), s.PENDING = some p ∧ s'.PENDING = some p' ∧
      s.COUNT = s'.COUNT ∧ s.VAL_OUT = s'.VAL_OUT ∧ s.OUT = s'.OUT ∧ s ≠ s' ∧
      p.operands.IN = p'.operands.IN ∧ p.operands.INLEN = p'.operands.INLEN ∧
      p.operands.VAL_IN.toNat % 2 ^ bits .w32 = p'.operands.VAL_IN.toNat % 2 ^ bits .w32 ∧
      p.operands.CAP = p'.operands.CAP :=
  ⟨accepted 0x02 [0xAC] 1 1 300, accepted 0x01 [0xAC] 1 1 0x10000012C, _, _, rfl, rfl, rfl, rfl, rfl,
    by decide, rfl, rfl, by decide, rfl⟩

/-- NoRegisterHasTwoWriters: a command and an access that complete. -/
theorem witness_NoRegisterHasTwoWriters :
    (∃ t, exec .enc32 (accepted 0x01 [] 0 0 300) = .next t ∧ isAccess .enc32 = false) ∧
    ∃ t, exec (.wr .CMD 0) State.reset = .next t ∧ isAccess (.wr .CMD 0) = true :=
  ⟨⟨_, rfl, rfl⟩, ⟨_, rfl, rfl⟩⟩

/-- FailedCommandKeepsResults: a failing decode, and an encode that is no decode. -/
theorem witness_FailedCommandKeepsResults :
    isAccess .dec64 = false ∧ gives (exec .dec64 (accepted 0x04 [] 0 0 0)) (fun t => t.RESULT != 1) = true ∧
    ∀ w, Instr.enci32 ≠ decOf w := by
  refine ⟨rfl, by decide, fun w => ?_⟩
  cases w <;> decide

/-- IllegalCommandCompletes: the acceptance and the completion of 0x03. -/
theorem witness_IllegalCommandCompletes :
    (State.reset.BUSY = false ∧ (0x03 : Data).setWidth 8 ∉ legalCommands) ∧
    ∃ (s : State) (p : PendingCmd), s.PENDING = some p ∧ p.command ∉ legalCommands ∧
      s.schedule = [.complete] :=
  ⟨⟨rfl, by decide⟩, { accepted 0x03 [] 0 0 0 with schedule := [.complete] }, _, rfl, by decide, rfl⟩

/-- ResultCodePriority: an illegal value, and one command of each kind at CAP's edges. -/
theorem witness_ResultCodePriority :
    (∃ (s : State) (p : PendingCmd), s.PENDING = some p ∧ s.schedule = [.complete] ∧
      p.command ∉ legalCommands) ∧
    decode (.command 0x00) = .ok (decOf .w32) ∧ decode (.command 0x05) = .ok (encOf .w64) ∧
    decode (.command 0x0A) = .ok (enciOf .w128) ∧
    (accepted 0x02 [] 0 1 128).operands.CAP.toNat < encLen (128 % 2 ^ bits .w32) ∧
    ¬(accepted 0x02 [] 0 2 128).operands.CAP.toNat < encLen (128 % 2 ^ bits .w32) :=
  ⟨⟨{ accepted 0x0C [] 0 0 0 with schedule := [.complete] }, _, rfl, rfl, by decide⟩, rfl, rfl, rfl,
    by decide, by decide⟩

/-- PendingCommandCompletes: the block's move scheduled, and nothing scheduled. -/
theorem witness_PendingCommandCompletes :
    (∃ (s : State) (p : PendingCmd), s.PENDING = some p ∧ s.schedule = .complete :: [readCycle 0x17]) ∧
    ∃ (s : State) (p : PendingCmd), s.PENDING = some p ∧ s.schedule = [] :=
  ⟨⟨{ accepted 0x00 [] 0 0 0 with schedule := [.complete, readCycle 0x17] }, _, rfl, rfl⟩,
    ⟨accepted 0xFF [] 0 0 0, _, rfl, rfl⟩⟩

/-- OnlyBusyWritesStop: a busy state with a write presented, which faults, and one with a read, which does
not. -/
theorem witness_OnlyBusyWritesStop :
    faults (step { accepted 0x00 [] 0 0 0 with schedule := [writeCycle 0x3F 0] }) = true ∧
    faults (step { accepted 0x00 [] 0 0 0 with schedule := [readCycle 0x18] }) = false := by decide

/-- StepKeepsInvariant: from a busy state and from an idle one. -/
theorem witness_StepKeepsInvariant :
    (∃ s t : State, s.Inv ∧ s.BUSY = true ∧ step s = .next t) ∧
    ∃ s t : State, s.Inv ∧ s.BUSY = false ∧ step s = .next t :=
  ⟨⟨accepted 0x09 [] 0 0 0, _, busy_inv _, rfl, rfl⟩, ⟨_, _, idle_inv, rfl, rfl⟩⟩

/-- StatusIdleMeansResultsVisible: an idle state whose STATUS reads 0x01. -/
theorem witness_StatusIdleMeansResultsVisible :
    ∃ s t : State, s.Inv ∧ exec (.rd .STATUS) s = .next t ∧ t.rdata.getLsbD 7 = false :=
  ⟨_, _, idle_inv, rfl, by decide⟩

/-- CombineOverflowsOnlyAtLastByte: the largest accumulator at the last index, at the limit and below it. -/
theorem witness_CombineOverflowsOnlyAtLastByte :
    4 < maxBytes .w32 ∧ 2 ^ 28 - 1 < 2 ^ (7 * 4) ∧
    (4 + 1 = maxBytes .w32 ∧ lastLim .w32 ≤ (0x10 : BitVec 7).toNat) ∧
    ¬(4 + 1 = maxBytes .w32 ∧ lastLim .w32 ≤ (0x0F : BitVec 7).toNat) := by decide

/-- EncLenBoundaries: both edges of k = 2 (R76). -/
theorem witness_EncLenBoundaries :
    encLen 127 = 1 ∧ encLen 128 = 2 ∧ encLen 16383 = 2 ∧ encLen 16384 = 3 := by decide

/-- LoadInFillsTheWindow: nineteen bytes on an idle block. -/
theorem witness_LoadInFillsTheWindow :
    (List.replicate 19 (0xFF : Byte)).length ≤ 19 ∧ State.reset.BUSY = false := by decide

/-- CommandCompletesAtItsLatency: an idle block, then a read and a cycle without an access. -/
theorem witness_CommandCompletesAtItsLatency :
    State.reset.BUSY = false ∧ State.reset.PENDING = none ∧
    ∀ c ∈ [({ rst := false, req := true, we := false, addr := 0x17, wdata := 0 } : HostCycle),
        { rst := false, req := false, we := true, addr := 0, wdata := 0 }],
      c.rst = false ∧ (c.req = true → c.we = false) := by decide

/-- TimedRunsAreUntimedRuns: a command with latency 1 and the edge that completes it. -/
theorem witness_TimedRunsAreUntimedRuns :
    ∃ u : TimedState,
      clockEdges (fun _ _ => 1)
        [{ rst := false, req := true, we := true, addr := 0x16, wdata := 0x01 },
          { rst := false, req := true, we := false, addr := 0x17, wdata := 0 }]
        { core := State.reset, elapsed := 0 } = .next u ∧
      u.core.schedule = [] ∧ u.core.STATUS = 0x01 :=
  ⟨_, rfl, rfl, by decide⟩

end

end Sys2Proof.Tests
end

section
/-! The obligations about the scope of the unit (spec/00_scope.md). -/

namespace Sys2Proof.Machine

/-- Settles O37 (R6): the three values are computed from `W`; the two bounds that make `maxBytes` the
ceiling are `lastShift_lt` and `bits_le`. -/
theorem maxBytesValues : Obligations.MaxBytesValues :=
  ⟨rfl, rfl, rfl, fun w => ⟨lastShift_lt w, bits_le w⟩⟩

end Sys2Proof.Machine
end

section
/-! The obligations about the state (10_state.md): first what a command's completion can be, then the
invariant, and what a completion reads and leaves. -/

namespace Sys2Proof.Machine

/-! Completions. -/

section

/-- No decode is an allocating encode (R57). -/
theorem encOf_ne_decOf (w w' : Width) : encOf w ≠ decOf w' := by
  cases w <;> cases w' <;> decide

/-- No decode is an in-place encode (R57). -/
theorem enciOf_ne_decOf (w w' : Width) : enciOf w ≠ decOf w' := by
  cases w <;> cases w' <;> decide

/-- An error's code is never OK (R61). -/
theorem errorCode_ne_ok (e : ErrorKind) : errorCode e ≠ 1 := by
  cases e <;> decide

/-- An error's code is one of the codes up to 5 (R61, R140). -/
theorem errorCode_le (e : ErrorKind) : (errorCode e).toNat ≤ 5 := by
  cases e <;> decide

/-- A decode that succeeds consumes 1 to 19 bytes (R20, R52). -/
theorem decodeCore_count {w : Width} {input : List Byte} {c v : Nat}
    (h : decodeCore w input = .ok (c, v)) : 1 ≤ c ∧ c ≤ 19 := by
  obtain ⟨bs, ⟨hpos, hmax, -, -⟩, -, rfl, -⟩ := wellFormed_of_decodeCore h
  exact ⟨hpos, hmax.trans (maxBytes_le w)⟩

/-- An encoding of a command's operand has 1 to 19 bytes (R20, R111). -/
theorem encodeCore_count (w : Width) (S : Operands) :
    1 ≤ (encodeCore w (operandValue w S)).length ∧
    (encodeCore w (operandValue w S)).length ≤ 19 := by
  have hv := operandValue_lt w S
  have he := encodeCore_emits w _ hv
  exact ⟨he.pos, (he.length_le_maxBytes hv).trans (maxBytes_le w)⟩

/-- Everything a command's completion can be (R91, R112, R117): a decode succeeds or records an error; an
encode of either form succeeds; an in-place encode finds its buffer too small. -/
theorem exec_command_cases {i : Instr} (s : State) (hi : isAccess i = false) :
    (∃ w c v, i = decOf w ∧ 1 ≤ c ∧ c ≤ 19 ∧ exec i s = .next (s.decoded c v).retire) ∨
    (∃ w e, i = decOf w ∧ exec i s = .next (s.fail e).retire) ∨
    (∃ w bs, (i = encOf w ∨ i = enciOf w) ∧ 1 ≤ bs.length ∧ bs.length ≤ 19 ∧
      exec i s = .next (s.encoded bs).retire) ∨
    (∃ w n, i = enciOf w ∧ exec i s = .next ((s.scrambleOut n).fail .bufferTooSmall).retire) := by
  rcases instr_cases i with ⟨w, rfl⟩ | ⟨w, rfl⟩ | ⟨w, rfl⟩ | ⟨r, d, rfl⟩ | ⟨r, rfl⟩
  · rw [exec_decOf]
    rcases decodeCommit_cases w s.operands s with ⟨c, v, hc, h⟩ | ⟨e, -, h⟩ <;> rw [h]
    · obtain ⟨hpos, hle⟩ := decodeCore_count hc
      exact .inl ⟨w, c, v, rfl, hpos, hle, rfl⟩
    · exact .inr (.inl ⟨w, e, rfl, rfl⟩)
  · obtain ⟨hpos, hle⟩ := encodeCore_count w s.operands
    exact .inr (.inr (.inl ⟨w, _, .inl rfl, hpos, hle, exec_encOf w s⟩))
  · rw [exec_enciOf]
    rcases encodeIntoCommit_cases w s.operands s with ⟨-, h⟩ | ⟨-, h⟩ <;> rw [h]
    · obtain ⟨hpos, hle⟩ := encodeCore_count w s.operands
      exact .inr (.inr (.inl ⟨w, _, .inr rfl, hpos, hle, rfl⟩))
    · exact .inr (.inr (.inr ⟨w, _, rfl, rfl⟩))
  · cases hi
  · cases hi

end

/-! The invariant speaks of no field that a schedule, a read or a cycle without an access changes. -/

section

variable {s : State}

theorem State.Inv.setSchedule (h : s.Inv) (rest : List Move) : (s.setSchedule rest).Inv :=
  ⟨h.busy, h.live, h.pending, h.result, h.count, h.success⟩

theorem State.Inv.drive (h : s.Inv) (v : Data) : (s.drive v).Inv :=
  ⟨h.busy, h.live, h.pending, h.result, h.count, h.success⟩

theorem State.Inv.driveUnspecified (h : s.Inv) : s.driveUnspecified.Inv :=
  ⟨h.busy, h.live, h.pending, h.result, h.count, h.success⟩

/-- A reset edge meets the invariant, whatever the state before it (R160). -/
theorem resetEdge_inv (s : State) : (resetEdge s).Inv where
  busy := rfl
  live := by simp
  pending := by simp
  result := by simp
  count := by simp
  success := by simp

/-- An acceptance meets the invariant: its snapshot is the live input registers (R164). -/
theorem issue_inv (c : Byte) (hcount : s.COUNT.toNat ≤ 19) : (s.issue c).Inv where
  busy := rfl
  live := by
    intro p hp
    cases hp
    exact ⟨rfl, rfl⟩
  pending _ := rfl
  result := by simp [resultNone]
  count := hcount
  success := by simp [resultNone]

/-- After a completion nothing is pending, so the clauses about RESULT and COUNT are all that is left. -/
theorem retire_inv (hresult : s.RESULT.toNat ≤ 5) (hcount : s.COUNT.toNat ≤ 19)
    (hsuccess : s.RESULT = 1 → 1 ≤ s.COUNT.toNat) : s.retire.Inv where
  busy := rfl
  live := by simp
  pending := by simp
  result := hresult
  count := hcount
  success := hsuccess

/-- A completion that records an error meets the invariant, since COUNT stays (R141 to R145). -/
theorem fail_retire_inv (e : ErrorKind) (hcount : s.COUNT.toNat ≤ 19) : (s.fail e).retire.Inv :=
  retire_inv (errorCode_le e) hcount fun h => absurd h (errorCode_ne_ok e)

/-- A completion with OK meets the invariant when it counts 1 to 19 bytes (R20). -/
theorem ok_retire_inv {n : Nat} (hresult : s.RESULT = resultOk) (hcount : s.COUNT = BitVec.ofNat 5 n)
    (hpos : 1 ≤ n) (hle : n ≤ 19) : s.retire.Inv := by
  have hn : s.COUNT.toNat = n := by
    rw [hcount, BitVec.toNat_ofNat]
    exact Nat.mod_eq_of_lt (by omega)
  exact retire_inv (by simp [hresult, resultOk]) (by omega) fun _ => by omega

/-- A write on an idle block keeps the invariant: CMD issues a command, and any other write finds nothing
pending whose snapshot it could leave behind (R34). -/
theorem State.Inv.writeReg (h : s.Inv) (hidle : s.BUSY = false) (r : Reg) (d : Data) :
    (s.writeReg r d).Inv := by
  by_cases hr : r = .CMD
  · subst hr
    exact issue_inv _ h.count
  · have hnone : s.PENDING = none := by simpa [hidle] using h.busy
    obtain ⟨-, hbusy, hresult, hcount, -, -, hpending, -⟩ := writeReg_frame r d s hr
    constructor
    case busy => rw [hbusy, hpending, h.busy]
    case live => simp [hpending, hnone]
    case pending => simp [hbusy, hidle]
    case result => rw [hresult]; exact h.result
    case count => rw [hcount]; exact h.count
    case success => rw [hresult, hcount]; exact h.success

/-- A command's completion keeps the invariant. -/
theorem State.Inv.exec_command (h : s.Inv) {i : Instr} (hi : isAccess i = false) {t : State}
    (he : exec i s = .next t) : t.Inv := by
  rcases exec_command_cases s hi with ⟨w, c, v, -, hpos, hle, h'⟩ | ⟨w, e, -, h'⟩ |
    ⟨w, bs, -, hpos, hle, h'⟩ | ⟨w, n, -, h'⟩ <;> rw [h'] at he <;> cases he
  · exact ok_retire_inv rfl rfl hpos hle
  · exact fail_retire_inv e h.count
  · exact ok_retire_inv rfl rfl hpos hle
  · exact fail_retire_inv _ h.count

/-- A host write that answers keeps the invariant: it answers on an idle block only (R168). -/
theorem State.Inv.exec_wr (h : s.Inv) {r : Reg} {d : Data} {t : State}
    (he : exec (.wr r d) s = .next t) : t.Inv := by
  cases hb : s.BUSY with
  | true => rw [exec_wr_busy r d s hb] at he; cases he
  | false =>
    rw [exec_wr_idle r d s hb] at he
    cases he
    exact (h.writeReg hb r d).driveUnspecified

/-- A host read keeps the invariant, under hazard H2 or not (R35, R169). -/
theorem State.Inv.exec_rd (h : s.Inv) {r : Reg} {t : State}
    (he : exec (.rd r) s = .next t) : t.Inv := by
  by_cases hd : s.BUSY = false ∨ isResultReg r = false
  · rw [exec_rd_defined r s hd] at he
    cases he
    exact h.drive _
  · simp only [not_or, Bool.not_eq_false] at hd
    rw [exec_rd_hazard r s hd.1 hd.2] at he
    cases he
    exact h.driveUnspecified

end

/-- Settles O35, by what a step can be (`step_cases`): the state with its move taken still meets the
invariant, and so does what each kind of move makes of it. -/
theorem stepKeepsInvariant : Obligations.StepKeepsInvariant := by
  intro s t hs hstep
  obtain ⟨u, rfl, hu⟩ := step_cases s
  have hinv := hs.setSchedule s.schedule.tail
  rcases hu with h | h | h | ⟨-, h⟩ | ⟨r, d, h⟩ | ⟨r, h⟩ | ⟨-, i, hi, h⟩ <;> rw [h] at hstep
  · cases hstep; exact resetEdge_inv _
  · cases hstep; exact hinv.driveUnspecified
  · cases hstep; exact hinv
  · cases hstep; exact fail_retire_inv _ hinv.count
  · exact hinv.exec_wr hstep
  · exact hinv.exec_rd hstep
  · exact hinv.exec_command hi hstep

/-! What a completion leaves. -/

section

variable (w : Width) (S : Operands) (s : State)

/-- A decode writes no byte of OUT (R22). -/
@[simp] theorem decodeCommit_OUT : (decodeCommit w S s).OUT = s.OUT := by
  rw [decodeCommit_frame]

/-- A decode writes no input register (R24). -/
@[simp] theorem decodeCommit_inputs : (decodeCommit w S s).inputs = s.inputs := by
  rw [decodeCommit_frame]; rfl

/-- An in-place encode does not write VAL_OUT (R21). -/
@[simp] theorem encodeIntoCommit_VAL_OUT : (encodeIntoCommit w S s).VAL_OUT = s.VAL_OUT := by
  rcases encodeIntoCommit_cases w S s with ⟨-, h⟩ | ⟨-, h⟩ <;> rw [h] <;> rfl

/-- An in-place encode writes no input register (R24). -/
@[simp] theorem encodeIntoCommit_inputs : (encodeIntoCommit w S s).inputs = s.inputs := by
  rcases encodeIntoCommit_cases w S s with ⟨-, h⟩ | ⟨-, h⟩ <;> rw [h] <;> rfl

end

/-! What a completion reads: what it writes is a function of the operands of its row (R24) and of the
result registers it leaves. -/

section

variable {S S' : Operands} {s s' : State} (w : Width)

/-- A decode reads the input bytes alone. -/
theorem decodeCommit_agree (hin : inputBytes S = inputBytes S') (hcount : s.COUNT = s'.COUNT)
    (hval : s.VAL_OUT = s'.VAL_OUT) :
    (decodeCommit w S s).RESULT = (decodeCommit w S' s').RESULT ∧
    (decodeCommit w S s).COUNT = (decodeCommit w S' s').COUNT ∧
    (decodeCommit w S s).VAL_OUT = (decodeCommit w S' s').VAL_OUT := by
  simp only [decodeCommit, hin]
  cases decodeCore w (inputBytes S') with
  | ok r => simp
  | error e => simp [hcount, hval]

/-- An allocating encode reads the low W bits of VAL_IN alone. -/
theorem encodeCommit_agree (hv : operandValue w S = operandValue w S') (hout : s.OUT = s'.OUT) :
    (encodeCommit w S s).COUNT = (encodeCommit w S' s').COUNT ∧
    (encodeCommit w S s).OUT = (encodeCommit w S' s').OUT := by
  simp [encodeCommit, hv, hout]

/-- An in-place encode reads the low W bits of VAL_IN and CAP alone; after a failure the bytes of OUT below
CAP are free (R117). -/
theorem encodeIntoCommit_agree (hv : operandValue w S = operandValue w S') (hcap : S.CAP = S'.CAP)
    (hcount : s.COUNT = s'.COUNT) (hout : s.OUT = s'.OUT) :
    (encodeIntoCommit w S s).RESULT = (encodeIntoCommit w S' s').RESULT ∧
    (encodeIntoCommit w S s).COUNT = (encodeIntoCommit w S' s').COUNT ∧
    ∀ (i : Nat) (_ : i < 19), (encodeIntoCommit w S s).RESULT = 1 ∨ S.CAP.toNat ≤ i →
      (encodeIntoCommit w S s).OUT[i] = (encodeIntoCommit w S' s').OUT[i] := by
  simp only [encodeIntoCommit, ← hv, ← hcap]
  split
  · simp [hout]
  · refine ⟨rfl, hcount, fun i hi h => ?_⟩
    have hpast : S.CAP.toNat ≤ i := h.resolve_left (errorCode_ne_ok .bufferTooSmall)
    simp only [fail_OUT, scrambleOut_OUT]
    rw [overwrite_past _ _ i hi (by simpa using hpast), overwrite_past _ _ i hi (by simpa using hpast),
      hout]

end

/-- Settles O27 (R24): each kind of command completes by committing its snapshot, and its commit reads and
leaves what the lemmas above say. -/
theorem commandReadsOnlyItsOperands : Obligations.CommandReadsOnlyItsOperands := by
  intro w s s' p p' hp hp' hcount hval hout
  simp only [exec_decOf, exec_encOf, exec_enciOf, operands_of_pending hp, operands_of_pending hp']
  refine ⟨fun hin hlen => ?_, fun hv => ?_, fun hv hcap => ?_⟩
  · have hbytes : inputBytes p.operands = inputBytes p'.operands := by
      simp only [inputBytes, hin, hlen]
    obtain ⟨h1, h2, h3⟩ := decodeCommit_agree w hbytes hcount hval
    exact ⟨_, _, rfl, rfl, h1, h2, h3, by simp, by simp [hout], by simp, by simp⟩
  · obtain ⟨h1, h2⟩ := encodeCommit_agree w hv hout
    exact ⟨_, _, rfl, rfl, rfl, rfl, h1, h2, rfl, hval.symm, rfl, rfl⟩
  · obtain ⟨h1, h2, h3⟩ := encodeIntoCommit_agree w hv hcap hcount hout
    exact ⟨_, _, rfl, rfl, h1, h2, h3, by simp, by simp [hval], by simp, by simp⟩

/-- Settles O29, by what a completion can be (`exec_command_cases`), with a command pending or not (log
entry 4). -/
theorem failedCommandKeepsResults : Obligations.FailedCommandKeepsResults := by
  intro i s hi
  rcases exec_command_cases s hi with ⟨w, c, v, rfl, -, -, h⟩ | ⟨w, e, rfl, h⟩ |
    ⟨w, bs, henc, -, -, h⟩ | ⟨w, n, rfl, h⟩
  · exact ⟨_, h, fun hne => absurd rfl hne, fun hnd => absurd rfl (hnd w), fun _ => rfl⟩
  · exact ⟨_, h, fun _ => ⟨rfl, rfl⟩, fun _ => rfl, fun _ => rfl⟩
  · refine ⟨_, h, fun hne => absurd rfl hne, fun _ => rfl, fun ⟨w', hdec⟩ => ?_⟩
    rcases henc with rfl | rfl
    · exact absurd hdec (encOf_ne_decOf w w')
    · exact absurd hdec (enciOf_ne_decOf w w')
  · exact ⟨_, h, fun _ => ⟨rfl, rfl⟩, fun _ => rfl, fun ⟨w', hdec⟩ => absurd hdec (enciOf_ne_decOf w w')⟩

end Sys2Proof.Machine
end

section
/-! The obligations about the register map and the host port (20_memory.md): first the map read through
the registers' addresses, then what a write and a read can be. -/

namespace Sys2Proof.Machine

/-! The register map (R33). -/

section

/-- Every address is the address of a well-formed register operand, so a statement about every address is
one about every row of the map. -/
theorem exists_encodeAddr (a : Addr) : ∃ r : Reg, r.WellFormed = true ∧ encodeAddr r = a :=
  ⟨_, decodeAddr_wellFormed a, encodeAddr_decodeAddr a⟩

@[simp] theorem encodeAddr_IN_toNat (k : Fin 19) : (encodeAddr (.IN k)).toNat = k.val := by
  simp only [encodeAddr, BitVec.toNat_ofNat]
  omega

@[simp] theorem encodeAddr_OUT_toNat (k : Fin 19) : (encodeAddr (.OUT k)).toNat = 0x20 + k.val := by
  simp only [encodeAddr, BitVec.toNat_ofNat]
  omega

/-- The two ranges of reserved addresses (R36). -/
theorem reservedAddr_iff (a : Addr) :
    reservedAddr a = true ↔ (0x1A ≤ a.toNat ∧ a.toNat ≤ 0x1F) ∨ 0x33 ≤ a.toNat := by
  simp [reservedAddr]

/-- The addresses that hazard H2 touches: COUNT, VAL_OUT and the OUT window (R169). -/
theorem isResultReg_decodeAddr (a : Addr) :
    isResultReg (decodeAddr a) = true ↔
      a.toNat = 0x18 ∨ a.toNat = 0x19 ∨ (0x20 ≤ a.toNat ∧ a.toNat ≤ 0x32) := by
  revert a; decide

end

/-- The access word of a well-formed register operand decodes to the access of that operand (R33, R62). -/
theorem decode_access_encodeAddr (we : Bool) {r : Reg} (d : Data) (hr : r.WellFormed = true) :
    decode (.access (BitVec.ofBool we ++ encodeAddr r) d) = .ok (if we then .wr r d else .rd r) := by
  rw [decode, decodeAccess_append, decodeAddr_encodeAddr r hr]

/-- Settles O7: a command byte decodes by the command map (R57), an access word by its WE bit and the
register map read back (R62). -/
theorem decodeEncodeRoundTrip : Obligations.DecodeEncodeRoundTrip := by
  intro i hi
  cases i with
  | wr r d => exact decode_access_encodeAddr true d hi
  | rd r => exact decode_access_encodeAddr false 0 hi
  | _ => rfl

/-- Settles O3: each clause is the step's equation for its move, and the last one is the block's move by
fairness (R167). -/
theorem stepRunsDecodedInstruction : Obligations.StepRunsDecodedInstruction := by
  refine ⟨fun s p rest i hs hr hq hd => ?_, fun s q rest i hs hp hd => step_complete hs hp hd,
    fun s q i hs hp hd => ?_⟩
  · have hi : decodeAccess (BitVec.ofBool p.we ++ p.addr) p.wdata = i := Except.ok.inj hd
    rw [step_access hs hr hq, ← decodeAccess_append, hi]
    rfl
  · rw [step_fair hs hp, step_complete (s := s.setSchedule [.complete]) rfl hp hd,
      setSchedule_setSchedule, setSchedule_self hs]

/-! What a write and a read can be. -/

section

/-- A write that answers was presented to an idle block (R168). -/
theorem exec_wr_next {r : Reg} {d : Data} {s t : State} (h : exec (.wr r d) s = .next t) :
    s.BUSY = false ∧ t = (s.writeReg r d).driveUnspecified := by
  cases hb : s.BUSY with
  | true => rw [exec_wr_busy r d s hb] at h; cases h
  | false => rw [exec_wr_idle r d s hb] at h; cases h; exact ⟨rfl, rfl⟩

variable (r : Reg) (d : Data) (s : State)

/-- A read completes and changes nothing but the port and the draw counter, under hazard H2 or not (R35,
R169). -/
theorem exec_rd_frame :
    ∃ (v : Data) (n : Nat), exec (.rd r) s = .next { s with rdata := v, draws := n } := by
  by_cases hd : s.BUSY = false ∨ isResultReg r = false
  · exact ⟨_, _, exec_rd_defined r s hd⟩
  · simp only [not_or, Bool.not_eq_false] at hd
    exact ⟨_, _, exec_rd_hazard r s hd.1 hd.2⟩

/-- What a write stores does not depend on the port. -/
theorem writeReg_driveUnspecified :
    s.driveUnspecified.writeReg r d = (s.writeReg r d).driveUnspecified := by
  cases r <;> rfl

/-- Writing a register other than CMD twice is writing it once (R37). -/
theorem writeReg_writeReg (h : r ≠ .CMD) : (s.writeReg r d).writeReg r d = s.writeReg r d := by
  cases r with
  | IN k => simp [State.writeReg, Vector.set_set]
  | CMD => exact absurd rfl h
  | _ => rfl

/-- A register's value is a function of the registers of R10, not of the model's own fields. -/
theorem readReg_ports (x : Data) (n : Nat) (moves : List Move) :
    State.readReg { s with rdata := x, draws := n, schedule := moves } r = s.readReg r := by
  cases r <;> rfl

/-- Bit 7 of what STATUS reads as is BUSY (R19, R60). -/
theorem readReg_STATUS_busy : (s.readReg .STATUS).getLsbD 7 = s.BUSY := by
  have layout : ∀ (b : Bool) (c : BitVec 3),
      ((BitVec.ofBool b ++ (0b0000#4 ++ c)).setWidth 128).getLsbD 7 = b := by decide
  exact layout s.BUSY s.RESULT

end

/-- Settles O9, row by row of the register map. -/
theorem hostWriteAtEveryAddress : Obligations.HostWriteAtEveryAddress := by
  intro a d s
  refine ⟨fun hidle => ⟨Config.drawWord s.draws, s.draws + 1, ?_⟩, exec_wr_busy _ d s⟩
  obtain ⟨r, hr, rfl⟩ := exists_encodeAddr a
  rw [exec_wr_idle _ _ _ hidle, decodeAddr_encodeAddr r hr]
  cases r with
  | IN k =>
    simp only [encodeAddr_IN_toNat, k.isLt, dif_pos]
    rfl
  | OUT k =>
    have hk := encodeAddr_OUT_toNat k
    simp (disch := omega) only [dif_neg, if_neg]
    rfl
  | reserved a =>
    have ha := (reservedAddr_iff (encodeAddr (.reserved a))).1 hr
    simp (disch := omega) only [dif_neg, if_neg]
    rfl
  | _ => rfl

/-- Settles O10: the hazard's addresses are `isResultReg_decodeAddr`, and the value read is the register's,
row by row of the map. -/
theorem hostReadAtEveryAddress : Obligations.HostReadAtEveryAddress := by
  intro a s
  refine ⟨fun _ _ => exec_rd_frame _ s, fun h => ?_⟩
  rw [← isResultReg_decodeAddr, Bool.not_eq_true] at h
  rw [exec_rd_defined _ s h]
  refine congrArg (fun v => Host.Outcome.next (s.drive v)) ?_
  obtain ⟨r, hr, rfl⟩ := exists_encodeAddr a
  rw [decodeAddr_encodeAddr r hr]
  cases r with
  | IN k =>
    simp only [encodeAddr_IN_toNat, k.isLt, dif_pos]
    rfl
  | OUT k =>
    have hk := encodeAddr_OUT_toNat k
    simp (disch := omega) only [dif_neg, if_neg]
    simp [State.readReg]
  | reserved a =>
    have ha := (reservedAddr_iff (encodeAddr (.reserved a))).1 hr
    simp (disch := omega) only [dif_neg, if_neg]
    rfl
  | _ => rfl

/-- Settles O11: an address in the two ranges is its own reserved operand, which reads 0 and which no
write stores to. -/
theorem reservedAddressesReadZeroIgnoreWrites : Obligations.ReservedAddressesReadZeroIgnoreWrites := by
  intro a d s ha
  have hreg : decodeAddr a = .reserved a := decodeAddr_encodeAddr (.reserved a) ((reservedAddr_iff a).2 ha)
  rw [hreg]
  exact ⟨exec_rd_defined _ s (.inr rfl), fun hidle => ⟨_, _, exec_wr_idle _ d s hidle⟩⟩

/-- Settles O15: a write to CMD is an acceptance; the other writes store and are idempotent
(`writeReg_writeReg`); a read is its frame, and what it reads is a function of the registers. -/
theorem writesIdempotentReadsRepeatable : Obligations.WritesIdempotentReadsRepeatable := by
  refine ⟨fun s d hidle => ⟨_, _, exec_wr_idle .CMD d s hidle⟩, fun s t r d hidle ht => ?_,
    fun s r => ⟨?_, fun hd => ⟨s.readReg r, fun x n moves => ?_⟩⟩⟩
  · have hstore : r ≠ .CMD ∧ t = s.writeReg r d := by
      rcases ht with ⟨k, rfl, rfl⟩ | ⟨rfl, rfl⟩ | ⟨rfl, rfl⟩ | ⟨rfl, rfl⟩ <;> exact ⟨nofun, rfl⟩
    obtain ⟨hr, rfl⟩ := hstore
    obtain ⟨-, hbusy, -⟩ := writeReg_frame r d s hr
    have hagain := exec_wr_idle r d (s.writeReg r d).driveUnspecified (hbusy.trans hidle)
    rw [writeReg_driveUnspecified, writeReg_writeReg r d s hr] at hagain
    exact ⟨_, _, _, _, exec_wr_idle r d s hidle, hagain⟩
  · obtain ⟨v, n, h⟩ := exec_rd_frame r s
    exact ⟨_, h, rfl⟩
  · rw [← readReg_ports r s x n moves]
    exact exec_rd_defined r _ hd

/-- Settles O28: a command's completion writes no input register and not LASTCMD, whichever way it ends
(`exec_command_cases`); a write stores to no result register, and a read to none at all. -/
theorem noRegisterHasTwoWriters : Obligations.NoRegisterHasTwoWriters := by
  intro i s t ht
  refine ⟨fun hi => ?_, fun hi => ?_⟩
  · rcases exec_command_cases s hi with ⟨w, c, v, -, -, -, h⟩ | ⟨w, e, -, h⟩ | ⟨w, bs, -, -, -, h⟩ |
      ⟨w, n, -, h⟩ <;> rw [h] at ht <;> cases ht <;> exact ⟨rfl, rfl, rfl, rfl, rfl, rfl, rfl⟩
  · cases i with
    | wr r d =>
      obtain ⟨-, rfl⟩ := exec_wr_next ht
      exact writeReg_outputs r d s
    | rd r =>
      obtain ⟨v, n, h⟩ := exec_rd_frame r s
      rw [h] at ht
      cases ht
      exact ⟨rfl, rfl, rfl, rfl⟩
    | _ => cases hi

/-- Settles O36: bit 7 of STATUS is BUSY, by the invariant BUSY = 0 is nothing pending, and an idle block's
reads are all defined. -/
theorem statusIdleMeansResultsVisible : Obligations.StatusIdleMeansResultsVisible := by
  intro s hs
  refine ⟨_, exec_rd_defined .STATUS s (.inr rfl), fun hbit => ?_⟩
  have hidle : s.BUSY = false := (readReg_STATUS_busy s).symm.trans hbit
  have hnone : s.PENDING = none := by simpa [hidle] using hs.busy
  exact ⟨hnone, fun r => exec_rd_defined r _ (.inl hidle)⟩

end Sys2Proof.Machine
end

section
/-! The obligations about the encodings (30_encoding.md): the command map, the access word, STATUS, the
varints the decoder accepts, and what `load_in` stands for. -/

namespace Sys2Proof.Machine

/-! The command map (R57, R58). -/

section

/-- Settles O5: nine rows to read off, and the 247 values that are none of them (R58). -/
theorem commandMapIsTheNineValues : Obligations.CommandMapIsTheNineValues :=
  ⟨⟨rfl, rfl, rfl, rfl, rfl, rfl, rfl, rfl, rfl⟩, by decide⟩

/-- A byte that decodes is one of the nine. -/
theorem mem_legalCommands_of_decode {c : Byte} {i : Instr} (h : decode (.command c) = .ok i) :
    c ∈ legalCommands := by
  by_contra hc
  rw [commandMapIsTheNineValues.2 c hc] at h
  cases h

/-- The command map read backwards, row by row. -/
theorem encode_of_decode_command {c : Byte} {i : Instr} (h : decode (.command c) = .ok i) :
    encode i = .command c := by
  have hc := mem_legalCommands_of_decode h
  simp only [legalCommands, List.mem_cons, List.not_mem_nil, or_false] at hc
  rcases hc with rfl | rfl | rfl | rfl | rfl | rfl | rfl | rfl | rfl <;> cases h <;> rfl

end

/-- A command is well formed, for it has no operand field (R54). -/
theorem wellFormed_of_command {i : Instr} (h : isAccess i = false) : i.WellFormed = true := by
  cases i with
  | wr r d => cases h
  | rd r => cases h
  | _ => rfl

/-! The access word (R62). -/

section

variable (we : Bool) (a : Addr) (d : Data)

/-- Bit 6 of an access word is WE. -/
@[simp] theorem getLsbD_accessWord : (BitVec.ofBool we ++ a).getLsbD 6 = we := by
  revert we a; decide

/-- Every access word is WE above ADDR. -/
theorem exists_accessWord (w : BitVec 7) : ∃ (we : Bool) (a : Addr), w = BitVec.ofBool we ++ a :=
  ⟨w.getLsbD 6, w.setWidth 6, by revert w; decide⟩

/-- An access word decodes to the access of the register at its address. -/
theorem decode_accessWord :
    decode (.access (BitVec.ofBool we ++ a) d) =
      .ok (if we then .wr (decodeAddr a) d else .rd (decodeAddr a)) :=
  congrArg Except.ok (decodeAccess_append we a d)

end

/-- Settles O6: WE chooses the access, the nine examples evaluate, and a step runs the word on its ports
(`stepRunsDecodedInstruction`). -/
theorem accessWordsDecode : Obligations.AccessWordsDecode := by
  refine ⟨fun a d => ⟨decode_accessWord true a d, decode_accessWord false a d⟩, fun d =>
    ⟨rfl, rfl, rfl, rfl, rfl, rfl, rfl, rfl, rfl, fun s p rest i hs hr hq hd hi => ?_⟩⟩
  subst hd
  exact stepRunsDecodedInstruction.1 s p rest i hs hr hq hi

/-- Settles O8: a command by the map read backwards, an access by its WE bit and the register map read
backwards (`encodeAddr_decodeAddr`). -/
theorem decodedWordIsItsEncoding : Obligations.DecodedWordIsItsEncoding := by
  refine ⟨fun c i h => ?_, fun w d i h => ?_⟩
  · have hi := decode_command_isAccess h
    exact ⟨wellFormed_of_command hi, hi, encode_of_decode_command h⟩
  · obtain ⟨we, a, rfl⟩ := exists_accessWord w
    rw [decode_accessWord] at h
    cases h
    rw [getLsbD_accessWord]
    cases we <;> exact ⟨decodeAddr_wellFormed a, rfl, by simp [encode, encodeAddr_decodeAddr]⟩

/-! STATUS (R60). -/

/-- What STATUS reads as, as a number: BUSY at weight 128 above RESULT. -/
theorem readReg_STATUS_toNat (s : State) :
    (s.readReg .STATUS).toNat = (if s.BUSY then 128 else 0) + s.RESULT.toNat := by
  have layout : ∀ (b : Bool) (c : BitVec 3),
      ((BitVec.ofBool b ++ (0b0000#4 ++ c)).setWidth 128).toNat = (if b then 128 else 0) + c.toNat := by
    decide
  exact layout s.BUSY s.RESULT

/-- Settles O12: hazard H2 does not touch STATUS, so a read drives its value. -/
theorem statusReadLayout : Obligations.StatusReadLayout := fun s =>
  ⟨_, exec_rd_defined .STATUS s (.inr rfl), readReg_STATUS_toNat s⟩

/-- Settles O17: DecodeCore answers a success exactly on the inputs that begin with a well-formed varint
(`decodeCore_of_wellFormed`, `wellFormed_of_decodeCore`), and its errors are INCOMPLETE and OVERFLOW. -/
theorem decodeAcceptsWellFormedVarints : Obligations.DecodeAcceptsWellFormedVarints := by
  intro w s p hp
  rw [exec_decOf, operands_of_pending hp]
  refine ⟨fun bs hbs hpre => ?_, fun hnone => ?_⟩
  · have hcore : decodeCore w (inputBytes p.operands) = _ := decodeCore_of_wellFormed hbs hpre
    rw [decodeCommit, hcore]
    rfl
  · rcases decodeCommit_cases w p.operands s with ⟨c, v, hok, -⟩ | ⟨e, herr, hcommit⟩
    · obtain ⟨bs, hbs, hpre, -⟩ := wellFormed_of_decodeCore hok
      exact absurd ⟨bs, hbs, hpre⟩ hnone
    · rw [hcommit]
      refine ⟨errorCode e, ?_, rfl⟩
      rcases decodeScan_error w 0 0 _ e herr with rfl | rfl
      · exact .inl rfl
      · exact .inr rfl

/-! The accesses of `load_in` (R64). -/

section

/-- A write presented to an idle block stores, and the accesses after it go on from there. -/
theorem runAccesses_wr_idle (r : Reg) (d : Data) (is : List Instr) {s : State} (h : s.BUSY = false) :
    runAccesses (.wr r d :: is) s = runAccesses is (s.writeReg r d).driveUnspecified := by
  rw [runAccesses, exec_wr_idle r d s h]

/-- Writing a byte, zero-extended to the data path, at the address of window index `k` stores it there. -/
theorem writeReg_IN_byte {k : Nat} (hk : k < 19) (b : Byte) (s : State) :
    s.writeReg (decodeAddr (BitVec.ofNat 6 k)) (b.setWidth 128) =
      { s with IN := s.IN.setIfInBounds k b } := by
  have hreg : decodeAddr (BitVec.ofNat 6 k) = .IN ⟨k, hk⟩ := decodeAddr_encodeAddr (.IN ⟨k, hk⟩) rfl
  have hbyte : (b.setWidth 128).setWidth 8 = b := by simp
  have hset : s.IN.set k b hk = s.IN.setIfInBounds k b :=
    Vector.ext fun i hi => by rw [Vector.getElem_set, Vector.getElem_setIfInBounds]
  rw [hreg, State.writeReg, hbyte, hset]

/-- The writes of the bytes of `bs` from window index `k` overwrite IN from `k`, and the accesses after
them go on from there. -/
theorem runAccesses_loadFrom (bs : List Byte) (is : List Instr) (k : Nat) (s : State)
    (hlen : k + bs.length ≤ 19) (hidle : s.BUSY = false) :
    ∃ (v : Data) (n : Nat), runAccesses (loadFrom k bs ++ is) s =
      runAccesses is { s with IN := overwriteFrom s.IN k bs, rdata := v, draws := n } := by
  induction bs generalizing k s with
  | nil => exact ⟨s.rdata, s.draws, rfl⟩
  | cons b rest ih =>
    rw [List.length_cons] at hlen
    rw [loadFrom, List.cons_append, runAccesses_wr_idle _ _ _ hidle, writeReg_IN_byte (by omega)]
    obtain ⟨v, n, h⟩ := ih (k + 1)
      (State.driveUnspecified { s with IN := s.IN.setIfInBounds k b }) (by omega) hidle
    exact ⟨v, n, h⟩

end

/-- Settles O41: the bytes' writes overwrite IN from index 0, and the last write stores their number in
INLEN, which holds it without loss. -/
theorem loadInFillsTheWindow : Obligations.LoadInFillsTheWindow := by
  intro bs s hlen hidle
  obtain ⟨v, n, hload⟩ :=
    runAccesses_loadFrom bs [.wr .INLEN (BitVec.ofNat 128 bs.length)] 0 s (by omega) hidle
  have hcount : (BitVec.ofNat 128 bs.length).setWidth 5 = BitVec.ofNat 5 bs.length :=
    BitVec.setWidth_ofNat_of_le (by decide) _
  refine ⟨overwrite s.IN bs, Config.drawWord n, n + 1, fun i hi => overwrite_getElem s.IN bs i hi, ?_⟩
  rw [expand, hload, runAccesses_wr_idle, State.writeReg, hcount]
  · rfl
  · exact hidle

end Sys2Proof.Machine
end

section
/-! The obligations about the primitives (40_primitives.md): the fields of a byte, the combiner's one
overflow, `encLen`'s boundaries, and the closed form of the encoder's output. -/

namespace Sys2Proof.Machine

/-! The fields of a byte (R70, R72, R74). -/

section

variable (g : BitVec 7) (c : Bool)

/-- The continuation bit of a built byte is the one it was built with. -/
@[simp] theorem cont_makeByte : cont (makeByte g c) = c := by
  have hg := g.isLt
  rw [cont_eq, makeByte_toNat]
  cases c
  · simp; omega
  · simp

/-- The data group of a built byte is the one it was built with. -/
@[simp] theorem data_makeByte : data (makeByte g c) = g := by
  have hg := g.isLt
  apply BitVec.eq_of_toNat_eq
  rw [data_toNat, makeByte_toNat]
  cases c <;> simp <;> omega

end

/-- Settles O38: both fields as numbers, and both read back from a built byte. -/
theorem byteFieldsReadAndBuilt : Obligations.ByteFieldsReadAndBuilt :=
  ⟨fun b => ⟨rfl, data_toNat b⟩,
    fun g => ⟨makeByte_toNat g true, (makeByte_toNat g false).trans (Nat.zero_add _)⟩,
    fun g c => ⟨cont_makeByte g c, data_makeByte g c⟩⟩

/-! The combiner within the scan (R77 to R80). -/

section

variable {acc i : Nat} (g : BitVec 7)

/-- Below group `i` there is room for the group: the sum stays below group `i + 1` (R80). -/
theorem add_group_lt (hacc : acc < 2 ^ (7 * i)) :
    acc + g.toNat * 2 ^ (7 * i) < 2 ^ (7 * (i + 1)) := by
  have hg : (g.toNat + 1) * 2 ^ (7 * i) ≤ 128 * 2 ^ (7 * i) := Nat.mul_le_mul_right _ g.isLt
  rw [Nat.succ_mul] at hg
  rw [Nat.mul_add 7, Nat.pow_add]
  omega

/-- The accumulator and the shifted group share no bit, so adding them is or-ing them (R80). -/
theorem add_group_eq_or (hacc : acc < 2 ^ (7 * i)) :
    acc + g.toNat * 2 ^ (7 * i) = acc ||| (g.toNat <<< (7 * i)) := by
  rw [Nat.or_comm, ← Nat.shiftLeft_add_eq_or_of_lt hacc, Nat.shiftLeft_eq, Nat.add_comm]

/-- The overflow limit is the number of values the last group has room for: shifted to its place it is
`2^W` (R79). -/
theorem lastLim_mul_pow (w : Width) : lastLim w * 2 ^ (7 * (maxBytes w - 1)) = 2 ^ bits w := by
  cases w <;> rfl

/-- Within the scan the sum exceeds W bits exactly at the last index with a group at the limit or above
(R78, R79). -/
theorem two_pow_bits_le_add_group_iff (w : Width) (hi : i < maxBytes w) (hacc : acc < 2 ^ (7 * i)) :
    2 ^ bits w ≤ acc + g.toNat * 2 ^ (7 * i) ↔ i + 1 = maxBytes w ∧ lastLim w ≤ g.toNat := by
  by_cases hlast : i + 1 = maxBytes w
  · obtain rfl : i = maxBytes w - 1 := by omega
    rw [← lastLim_mul_pow]
    refine ⟨fun hsum => ⟨hlast, ?_⟩, fun ⟨_, hlim⟩ => ?_⟩
    · have hlim : lastLim w * 2 ^ (7 * (maxBytes w - 1)) < (g.toNat + 1) * 2 ^ (7 * (maxBytes w - 1)) := by
        rw [Nat.succ_mul g.toNat]; omega
      exact Nat.le_of_lt_succ (Nat.lt_of_mul_lt_mul_right hlim)
    · exact (Nat.mul_le_mul_right _ hlim).trans (Nat.le_add_left _ _)
  · have hsum := add_group_lt g hacc
    have hroom : 2 ^ (7 * (i + 1)) ≤ 2 ^ bits w :=
      Nat.pow_le_pow_right (by decide) (by have := lastShift_lt w; omega)
    exact ⟨fun h => by omega, fun h => absurd h.1 hlast⟩

end

/-- Settles O39: within the scan the shift is below W (`lastShift_lt`), so COMBINE fails exactly when the
sum exceeds W bits. -/
theorem combineOverflowsOnlyAtLastByte : Obligations.CombineOverflowsOnlyAtLastByte := by
  intro w acc g i hi hacc
  have hshift : 7 * i < bits w := by have := lastShift_lt w; omega
  have hover := two_pow_bits_le_add_group_iff g w hi hacc
  have hpos := Nat.two_pow_pos (bits w)
  rw [combine_eq, ← hover]
  refine ⟨fun h => if_pos (by omega), fun h => ⟨?_, add_group_lt g hacc⟩⟩
  rw [if_neg (by omega), add_group_eq_or g hacc]

/-! `encLen` (R75, R76). -/

section

/-- `bit_length` is the least number of bits that hold the value (R75). -/
theorem bitLength_le_iff (v n : Nat) : bitLength v ≤ n ↔ v < 2 ^ n := by
  rw [bitLength]
  split
  · next h => simp [h]
  · next h => exact Nat.log2_lt h

/-- `encLen` is at least 1. -/
theorem encLen_pos (v : Nat) : 1 ≤ encLen v := Nat.le_max_left _ _

/-- `encLen` is the least number of groups, at least 1, that hold the value (R76). -/
theorem encLen_le_iff (v : Nat) {k : Nat} (hk : 1 ≤ k) : encLen v ≤ k ↔ v < 2 ^ (7 * k) := by
  rw [← bitLength_le_iff, encLen]
  omega

end

/-- Settles O40: `encLen v` is `k` when it is at most `k` and not at most `k - 1`, and `encLen_le_iff` says
when each is so. -/
theorem encLenBoundaries : Obligations.EncLenBoundaries := by
  refine ⟨fun v => ?_, fun v k hk => ?_⟩
  · have hle : encLen v ≤ 1 ↔ v < 128 := encLen_le_iff v le_rfl
    have hpos := encLen_pos v
    omega
  · have hle := encLen_le_iff v (show 1 ≤ k by omega)
    have hle' := encLen_le_iff v (show 1 ≤ k - 1 by omega)
    have := Nat.two_pow_pos (7 * k)
    omega

/-! The closed form of the encoder's output (R81). -/

section

variable {v : Nat} {e : List Byte}

/-- An emitted encoding has `encLen` bytes: its value fits them, and it takes no more than are needed. -/
theorem Emits.length_eq_encLen (h : Emits v e) : e.length = encLen v := by
  obtain ⟨hval, -⟩ := h.spec
  have hfits : v < 2 ^ (7 * e.length) := hval ▸ varintValue_lt e
  exact le_antisymm (h.length_le _ (encLen_pos v) ((encLen_le_iff v (encLen_pos v)).1 le_rfl))
    ((encLen_le_iff v h.pos).2 hfits)

/-- Something is left above group `i` exactly below the last of the `encLen` bytes (R71, R76). -/
theorem more_eq (v i : Nat) : more v i = decide (i + 1 < encLen v) := by
  have hle := encLen_le_iff v (Nat.succ_pos i)
  rw [more, Nat.shiftRight_eq_div_pow, Bool.eq_iff_iff, bne_iff_ne, decide_eq_true_iff, ← not_le, hle,
    Ne, Nat.div_eq_zero_iff_lt (Nat.two_pow_pos _)]

/-- Byte `i` of an emitted encoding, built from group `i` and the continuation bit (R81). -/
theorem Emits.getElem_eq_makeByte (h : Emits v e) (i : Nat) (hi : i < e.length) :
    e[i] = makeByte (group v i) (Machine.more v i) := by
  apply BitVec.eq_of_toNat_eq
  rw [h.getElem i hi, makeByte_toNat, group_toNat, more_eq, h.length_eq_encLen, Nat.add_comm]
  simp

end

/-- Settles O20: the encode commits an emitted encoding (`encodeCore_emits`), whose length is `encLen` and
whose bytes are the closed form's. -/
theorem encodeClosedForm : Obligations.EncodeClosedForm := by
  rintro w s p v hp rfl
  have hv := operandValue_lt w p.operands
  have he := encodeCore_emits w _ hv
  have hlen := he.length_eq_encLen
  refine ⟨hlen ▸ he.length_le_maxBytes hv,
    overwrite s.OUT (encodeCore w (operandValue w p.operands)), fun i hi => ?_, ?_⟩
  · rw [overwrite_getElem]
    split
    · next hlt =>
      have hi' := hlen ▸ hlt
      rw [List.getElem?_eq_getElem hi', Option.getD_some, he.getElem_eq_makeByte i hi']
      rfl
    · next hge => rw [List.getElem?_eq_none (hlen ▸ Nat.le_of_not_lt hge), Option.getD_none]
  · rw [exec_encOf, operands_of_pending hp, encodeCommit, State.encoded, hlen]
    rfl

end Sys2Proof.Machine
end

section
/-! The obligations about the decode commands (41_decode.md): the scan as a relation, and what a decode
answers at a wider width and on another input. -/

namespace Sys2Proof.Machine

/-! The scan as a relation (R90). -/

section

/-- The decoder's scan of the bytes still available, from index `i` on, is what the relation derives. -/
theorem scans_decodeScan (w : Width) (input : Window) (n i acc : Nat) (rest : List Byte)
    (hrest : (input.toList.take (min n (maxBytes w))).drop i = rest) :
    Scans w input n i acc (decodeScan w i acc rest) := by
  have hmax := maxBytes_le w
  have hlen := congrArg List.length hrest
  rw [List.length_drop, List.length_take, Vector.length_toList] at hlen
  induction rest generalizing i acc with
  | nil =>
    rw [List.length_nil] at hlen
    exact .exhausted i acc (by omega)
  | cons b rest ih =>
    rw [List.length_cons] at hlen
    have hi : i < min n (maxBytes w) := by omega
    have hshift : 7 * i < bits w := by have := lastShift_lt w; omega
    rw [List.drop_eq_getElem_cons (by simp; omega), List.cons.injEq] at hrest
    obtain ⟨hb, hrest⟩ := hrest
    obtain rfl : input[i] = b := by simpa using hb
    by_cases hsum : 2 ^ bits w - 1 < acc + input[i].toNat % 128 * 2 ^ (7 * i)
    · rw [decodeScan_cons_overflow w i acc _ rest hsum]
      exact .overflow i acc (by omega) hi (.inr hsum)
    · rw [decodeScan_cons_ok w i acc _ rest hshift (by omega)]
      cases hcont : input[i].getLsbD 7 with
      | false => exact .done i acc (by omega) hi hshift (by omega) hcont
      | true => exact .more i acc (by omega) _ hi hshift (by omega) hcont (ih _ _ hrest (by omega))

/-- What DecodeCore answers on a command's operands is what the relation derives. -/
theorem scans_decodeCore (w : Width) (S : Operands) :
    Scans w S.IN S.INLEN.toNat 0 0 (decodeCore w (inputBytes S)) := by
  refine scans_decodeScan w S.IN _ 0 0 _ ?_
  rw [List.drop_zero, inputBytes, List.take_take, Nat.min_comm]

end

/-- Settles O16: the outcome is DecodeCore's, which the relation derives (`scans_decodeCore`), and each
outcome is committed by its own write (R91). -/
theorem decodeRunsTheScan : Obligations.DecodeRunsTheScan := by
  intro w s p hp
  refine ⟨_, scans_decodeCore w p.operands, ?_⟩
  rw [exec_decOf, operands_of_pending hp]
  rcases decodeCommit_cases w p.operands s with ⟨c, v, hcore, hcommit⟩ | ⟨e, hcore, hcommit⟩
  · rw [hcommit, hcore]
    rfl
  · rw [hcommit, hcore]
    rcases decodeScan_error w 0 0 _ e hcore with rfl | rfl <;> rfl

/-! When a decode answers the same at another width or on another input. -/

section

variable {w : Width} {input input' : List Byte} {k : Nat}

/-- A varint that is well formed for one width is so for every wider one (R99). -/
theorem WellFormedVarint.widen {w' : Width} {bs : List Byte} (h : WellFormedVarint w bs)
    (hw : bits w ≤ bits w') : WellFormedVarint w' bs := by
  obtain ⟨hpos, hlen, hcont, hval⟩ := h
  have hmax : maxBytes w ≤ maxBytes w' := Nat.div_le_div_right (Nat.add_le_add_right hw 6)
  have hpow : 2 ^ bits w ≤ 2 ^ bits w' := Nat.pow_le_pow_right (by decide) hw
  exact ⟨hpos, hlen.trans hmax, hcont, by omega⟩

/-- What DecodeCore accepts at one width it accepts the same way at every wider one (R99). -/
theorem decodeCore_widen {w' : Width} {c v : Nat} (h : decodeCore w input = .ok (c, v))
    (hw : bits w ≤ bits w') : decodeCore w' input = .ok (c, v) := by
  obtain ⟨bs, hbs, hpre, rfl, rfl⟩ := wellFormed_of_decodeCore h
  exact decodeCore_of_wellFormed (hbs.widen hw) hpre

/-- What DecodeCore accepts it accepts the same way on every input with the same first `k` bytes, when it
stops within them (R95). -/
theorem decodeCore_ok_of_take_eq {c v : Nat} (h : decodeCore w input = .ok (c, v)) (hc : c ≤ k)
    (htake : input.take k = input'.take k) : decodeCore w input' = .ok (c, v) := by
  obtain ⟨bs, hbs, hpre, rfl, rfl⟩ := wellFormed_of_decodeCore h
  have hpre' : bs <+: input'.take k := htake ▸ List.prefix_take_iff.2 ⟨hpre, hc⟩
  exact decodeCore_of_wellFormed hbs (hpre'.trans (List.take_prefix k input'))

/-- DecodeCore looks at the first `maxBytes(W)` bytes at most (R90). -/
theorem decodeCore_of_take_eq (hk : maxBytes w ≤ k) (htake : input.take k = input'.take k) :
    decodeCore w input = decodeCore w input' := by
  have h := congrArg (List.take (maxBytes w)) htake
  rw [List.take_take, List.take_take, Nat.min_eq_left hk] at h
  rw [decodeCore, decodeCore, h]

variable {S S' : Operands}

/-- Two inputs that hold `k` bytes and agree on the window's first `k` begin with the same `k` bytes. -/
theorem inputBytes_take_eq (hk : k ≤ S.INLEN.toNat) (hk' : k ≤ S'.INLEN.toNat)
    (hagree : ∀ (i : Nat) (_ : i < 19), i < k → S.IN[i] = S'.IN[i]) :
    (inputBytes S).take k = (inputBytes S').take k := by
  rw [inputBytes, inputBytes, List.take_take, List.take_take, Nat.min_eq_left hk, Nat.min_eq_left hk']
  refine List.ext_getElem (by simp) fun i hi _ => ?_
  simp only [List.length_take, Vector.length_toList] at hi
  simpa using hagree i (by omega) (by omega)

/-- A decode that reports OK recorded a success of DecodeCore (R91). -/
theorem decodeCore_of_decodeCommit_ok {s : State} (h : (decodeCommit w S s).RESULT = 1) :
    ∃ c v, decodeCore w (inputBytes S) = .ok (c, v) ∧ decodeCommit w S s = s.decoded c v := by
  rcases decodeCommit_cases w S s with hok | ⟨e, -, hfail⟩
  · exact hok
  · rw [hfail] at h
    exact absurd h (errorCode_ne_ok e)

/-- The COUNT a decode's success records is the number of bytes consumed, which its 5 bits hold (R91). -/
theorem decoded_COUNT_toNat {c v : Nat} (h : decodeCore w input = .ok (c, v)) (s : State) :
    (s.decoded c v).COUNT.toNat = c := by
  obtain ⟨-, hle⟩ := decodeCore_count h
  rw [decoded_COUNT, BitVec.toNat_ofNat, Nat.mod_eq_of_lt (by omega)]

end

/-- Settles O25: the decode that reported OK committed a success of DecodeCore, and at the wider width
DecodeCore answers the same (`decodeCore_widen`). -/
theorem decodeWidthsNest : Obligations.DecodeWidthsNest := by
  intro w w' s t p _ hw hexec hok
  rw [exec_decOf] at hexec ⊢
  cases hexec
  obtain ⟨c, v, hcore, hcommit⟩ := decodeCore_of_decodeCommit_ok hok
  rw [hcommit, decodeCommit, decodeCore_widen hcore hw]

/-- Settles O26: the two inputs begin with the same `k` bytes, so DecodeCore answers the same on both, in
the first case because it stopped within them and in the second because it looks no further. -/
theorem decodeReadsNothingPastItsEnd : Obligations.DecodeReadsNothingPastItsEnd := by
  intro w s s' t p p' k hp hp' hk hk' hagree hexec hend
  have htake := inputBytes_take_eq hk hk' hagree
  rw [exec_decOf, operands_of_pending hp] at hexec
  cases hexec
  have hcore : decodeCore w (inputBytes p.operands) = decodeCore w (inputBytes p'.operands) := by
    rcases hend with ⟨hok, hcount⟩ | ⟨-, hmax⟩
    · obtain ⟨c, v, hcore, hcommit⟩ := decodeCore_of_decodeCommit_ok hok
      rw [retire_COUNT, hcommit, decoded_COUNT_toNat hcore] at hcount
      rw [hcore, decodeCore_ok_of_take_eq hcore hcount htake]
    · exact decodeCore_of_take_eq hmax htake
  refine ⟨_, exec_decOf w s', ?_⟩
  rw [operands_of_pending hp', decodeCommit, decodeCommit, hcore]
  cases decodeCore w (inputBytes p'.operands) with
  | ok r => exact ⟨rfl, fun _ => ⟨rfl, rfl⟩⟩
  | error e => exact ⟨rfl, fun hok => absurd hok (errorCode_ne_ok e)⟩

end Sys2Proof.Machine
end

section
/-! The obligations about the encode commands (42_encode.md): what a completed encode leaves, the capacity
check of the in-place form, and the emitted encoding as the one minimal varint of its value. -/

namespace Sys2Proof.Machine

/-! The encoding a command commits (R111, R112). -/

section

variable (w : Width) (S : Operands) (s : State) {e : List Byte}

/-- An encode's bytes are what the algorithm emits for the low W bits of VAL_IN (R110, R111). -/
theorem encodeCore_operand_emits : Emits (operandValue w S) (encodeCore w (operandValue w S)) :=
  encodeCore_emits w _ (operandValue_lt w S)

/-- The COUNT an encode records is the number of bytes, which its 5 bits hold (R112). -/
theorem encoded_COUNT_toNat (he : e.length ≤ 19) : (s.encoded e).COUNT.toNat = e.length := by
  rw [encoded_COUNT, BitVec.toNat_ofNat, Nat.mod_eq_of_lt (by omega)]

/-- The first COUNT bytes of OUT are the bytes an encode recorded (R112). -/
theorem encoded_take_COUNT (he : e.length ≤ 19) :
    (s.encoded e).OUT.toList.take (s.encoded e).COUNT.toNat = e := by
  rw [encoded_COUNT_toNat s he, encoded_OUT, overwrite_take _ _ he]

end

/-- Settles O19: the encode commits the bytes `encodeCore` emits, and `overwrite` puts them at the start of
OUT. -/
theorem encodeWritesEmittedBytes : Obligations.EncodeWritesEmittedBytes := by
  intro w s p hp
  refine ⟨_, _, encodeCore_operand_emits w p.operands, overwrite_getElem s.OUT _, ?_⟩
  rw [exec_encOf, operands_of_pending hp]
  rfl

/-! The capacity check (R116). -/

section

variable {w : Width} {S : Operands} (s : State)

/-- An encoding that fits CAP is committed as the allocating form commits it (R117). -/
theorem encodeIntoCommit_of_le (h : (encodeCore w (operandValue w S)).length ≤ S.CAP.toNat) :
    encodeIntoCommit w S s = encodeCommit w S s :=
  if_pos h

/-- An encoding longer than CAP leaves free bytes in the buffer and BUFFER_TOO_SMALL (R117). -/
theorem encodeIntoCommit_of_lt (h : S.CAP.toNat < (encodeCore w (operandValue w S)).length) :
    encodeIntoCommit w S s = (s.scrambleOut S.CAP.toNat).fail .bufferTooSmall :=
  if_neg (Nat.not_le_of_lt h)

end

/-- Settles O21: on either side of the capacity check the commit is known, and the bytes drawn on failure
are as many as CAP, so none lies past it. -/
theorem encodeInPlaceChecksCapacity : Obligations.EncodeInPlaceChecksCapacity := by
  intro w s p hp
  obtain ⟨hpos, hmax⟩ := encodeCore_count w p.operands
  rw [exec_enciOf, operands_of_pending hp]
  refine ⟨_, encodeCore_operand_emits w p.operands, hpos, hmax, fun hfits => ?_, fun hsmall => ?_⟩
  · rw [encodeIntoCommit_of_le s hfits]
    exact ⟨_, overwrite_getElem s.OUT _, rfl⟩
  · rw [encodeIntoCommit_of_lt s hsmall]
    exact ⟨_, _, fun i hi hpast => overwrite_past s.OUT _ i hi (by simpa using hpast), rfl⟩

/-- Settles O22: a value below `2^(7 CAP)` is emitted in at most CAP bytes (`Emits.length_le`). -/
theorem inPlaceFormAgreesWithAllocating : Obligations.InPlaceFormAgreesWithAllocating := by
  intro w s p hp hcap hvalue
  have hfits := (encodeCore_operand_emits w p.operands).length_le _ hcap hvalue
  rw [exec_enciOf, exec_encOf, operands_of_pending hp, encodeIntoCommit_of_le s hfits]

/-! The emitted encoding is the one minimal varint of its value (R53, R122). -/

section

variable {v : Nat} {e e' bs : List Byte} {b : Byte}

/-- The algorithm emits one encoding: `encLen` gives its length and the closed form its bytes (R81). -/
theorem Emits.unique (h : Emits v e) (h' : Emits v e') : e = e' := by
  refine List.ext_getElem (h.length_eq_encLen.trans h'.length_eq_encLen.symm) fun i hi hi' => ?_
  rw [h.getElem_eq_makeByte i hi, h'.getElem_eq_makeByte i hi']

/-- No sequence of bytes with the value is shorter than its encoding: `n` groups hold `7n` bits. -/
theorem Emits.length_le_of_value (h : Emits v e) (hpos : 1 ≤ bs.length) (hbs : varintValue bs = v) :
    e.length ≤ bs.length :=
  h.length_le _ hpos (hbs ▸ varintValue_lt bs)

/-- An emitted encoding ends in 0x00 only where it is the one byte of zero (R53). -/
theorem Emits.minimal (h : Emits v e) : Minimal e := by
  obtain ⟨-, pre, b, rfl, -, -, hzero⟩ := h.spec
  by_cases hb : b = 0
  · exact .inl (by simp [(hzero hb).2])
  · exact .inr (by simpa using hb)

/-- Bit 7 of a byte is clear exactly when the byte is its own data group (R70, R72). -/
theorem bit7_clear_iff (b : Byte) : b.getLsbD 7 = false ↔ b.toNat < 128 := by
  have hcont : b.getLsbD 7 = decide (128 ≤ b.toNat) := cont_eq b
  rw [hcont]
  simp

/-- Continuation bytes and a last byte are emitted for their value, when the last byte is not 0x00 or is
the only one: each continuation byte is a pass of the loop, since the bytes after it have a value. -/
theorem emits_varintValue {pre : List Byte} (hc : ∀ c ∈ pre, c.getLsbD 7 = true)
    (hb : b.getLsbD 7 = false) (hmin : pre = [] ∨ b ≠ 0) :
    Emits (varintValue (pre ++ [b])) (pre ++ [b]) := by
  have hlt := (bit7_clear_iff b).1 hb
  induction pre with
  | nil =>
    have hvalue : varintValue [b] = b.toNat := by
      rw [varintValue_cons, varintValue_nil]; omega
    rw [List.nil_append, hvalue]
    by_cases h0 : b = 0
    · exact h0 ▸ .zero
    · have hbyte : BitVec.ofNat 8 (b.toNat % 128) = b := by
        rw [Nat.mod_eq_of_lt hlt, BitVec.ofNat_toNat, BitVec.setWidth_eq]
      have hemit := Emits.last b.toNat (fun h => h0 (BitVec.eq_of_toNat_eq h)) (by omega)
      rwa [hbyte] at hemit
  | cons c pre ih =>
    have h0 : b ≠ 0 := hmin.resolve_left (List.cons_ne_nil c pre)
    have hrest := ih (fun d hd => hc d (List.mem_cons_of_mem c hd)) (.inr h0)
    have hne : varintValue (pre ++ [b]) ≠ 0 := by
      intro hzero
      have heq : pre ++ [b] = [0] := (hzero ▸ hrest).unique .zero
      exact h0 (by simpa using congrArg List.getLast? heq)
    have hvalue := varintValue_cons c (pre ++ [b])
    have hdiv : varintValue (c :: (pre ++ [b])) / 128 = varintValue (pre ++ [b]) := by omega
    have hbyte : BitVec.ofNat 8 (varintValue (c :: (pre ++ [b])) % 128 + 128) = c := by
      have hge := (bit7_clear_iff c).not.1 (by simp [hc c List.mem_cons_self])
      refine BitVec.eq_of_toNat_eq ?_
      rw [BitVec.toNat_ofNat]
      omega
    have hemit := Emits.more _ (pre ++ [b]) (hdiv ▸ hne) (hdiv ▸ hrest)
    rwa [hbyte] at hemit

/-- A minimal well-formed varint is what the algorithm emits for its value (R53, R122). -/
theorem WellFormedVarint.emits_of_minimal {w : Width} (h : WellFormedVarint w bs) (hmin : Minimal bs) :
    Emits (varintValue bs) bs := by
  obtain ⟨pre, b, rfl, hc, hb⟩ := h.split
  exact emits_varintValue hc hb (hmin.imp (by simp) (by simp))

end

/-- Settles O23: OUT begins with the emitted encoding, which is well formed and minimal; a minimal varint
of the same value is emitted for it too, and the algorithm emits one encoding. -/
theorem encodingIsUniqueMinimal : Obligations.EncodingIsUniqueMinimal := by
  intro w s p hp
  obtain ⟨-, hmax⟩ := encodeCore_count w p.operands
  have he := encodeCore_operand_emits w p.operands
  obtain ⟨hvalue, -⟩ := he.spec
  rw [exec_encOf, operands_of_pending hp]
  refine ⟨_, _, rfl, (encoded_take_COUNT s hmax).symm, he.wellFormed (operandValue_lt w p.operands),
    he.minimal, hvalue, fun bs hbs hsame => ?_⟩
  have hbs_value := hsame.trans hvalue
  exact ⟨he.length_le_of_value hbs.1 hbs_value,
    fun hmin => (hbs_value ▸ hbs.emits_of_minimal hmin).unique he⟩

/-- An input that holds `k` bytes and agrees with a window on the first `k` begins with that window's. -/
theorem inputBytes_take_of_agree {S : Operands} {win : Window} {k : Nat} (hk : k ≤ S.INLEN.toNat)
    (hagree : ∀ (i : Nat) (_ : i < 19), i < k → S.IN[i] = win[i]) :
    (inputBytes S).take k = win.toList.take k := by
  rw [inputBytes_take_eq (S' := { S with IN := win }) hk hk hagree, inputBytes, List.take_take,
    Nat.min_eq_left hk]

/-- Settles O24: the input begins with the same COUNT bytes as OUT, which are a well-formed varint of the
operand, and DecodeCore accepts it whatever follows (`decodeCore_of_wellFormed`). -/
theorem encodeDecodeRoundTrip : Obligations.EncodeDecodeRoundTrip := by
  intro w s p hp
  obtain ⟨-, hmax⟩ := encodeCore_count w p.operands
  have he := encodeCore_operand_emits w p.operands
  obtain ⟨hvalue, -⟩ := he.spec
  rw [exec_encOf, operands_of_pending hp]
  refine ⟨_, rfl, fun u q hq hagree hlen => ?_⟩
  have htake : (inputBytes q.operands).take _ = encodeCore w (operandValue w p.operands) :=
    (inputBytes_take_of_agree hlen hagree).trans (encoded_take_COUNT s hmax)
  have hcore := decodeCore_of_wellFormed (he.wellFormed (operandValue_lt w p.operands))
    (htake ▸ List.take_prefix _ _)
  rw [exec_decOf, operands_of_pending hq, decodeCommit, hcore, hvalue]
  rfl

end Sys2Proof.Machine
end

section
/-! The obligations about errors and completion (60_exceptions.md): which error a decode reports, the
illegal command, the one code of a completion, and the idle block. -/

namespace Sys2Proof.Machine

/-! Which error ends a scan (R141, R142). -/

section

variable {w : Width} {S : Operands} {i acc : Nat}

/-- What holds where the scan has taken every byte below index `i`: each of them continues, none is the
last of the scan with a group at the limit, and the accumulator holds `i` groups. -/
structure ScanReached (w : Width) (S : Operands) (i acc : Nat) : Prop where
  room      : acc < 2 ^ (7 * i)
  continues : ∀ (j : Nat) (_ : j < 19), j < i → S.IN[j].getLsbD 7 = true
  below     : ∀ (j : Nat) (_ : j < 19), j < i → j + 1 = maxBytes w → S.IN[j].toNat % 128 < lastLim w

/-- The scan begins with no byte taken. -/
theorem ScanReached.zero : ScanReached w S 0 0 :=
  ⟨by decide, fun _ _ h => absurd h (Nat.not_lt_zero _), fun _ _ h => absurd h (Nat.not_lt_zero _)⟩

/-- At a byte of the scan the sum exceeds W bits exactly when the byte is the scan's last and its group is
at the limit or above (R78, R79). -/
theorem ScanReached.exceeds_iff (h : ScanReached w S i acc) (h19 : i < 19) (hi : i < maxBytes w) :
    2 ^ bits w ≤ acc + S.IN[i].toNat % 128 * 2 ^ (7 * i) ↔
      i + 1 = maxBytes w ∧ lastLim w ≤ S.IN[i].toNat % 128 := by
  rw [← data_toNat]
  exact two_pow_bits_le_add_group_iff (data S.IN[i]) w hi h.room

/-- A byte whose sum fits is no last byte at the limit. -/
theorem ScanReached.below_of_fits (h : ScanReached w S i acc) (h19 : i < 19) (hi : i < maxBytes w)
    (hfits : acc + S.IN[i].toNat % 128 * 2 ^ (7 * i) ≤ 2 ^ bits w - 1) (hlast : i + 1 = maxBytes w) :
    S.IN[i].toNat % 128 < lastLim w := by
  by_contra hlim
  have hexceeds := (h.exceeds_iff h19 hi).2 ⟨hlast, Nat.le_of_not_lt hlim⟩
  have hpos := Nat.two_pow_pos (bits w)
  omega

/-- A continuation byte whose sum fits is taken, and the scan is at the next index. -/
theorem ScanReached.succ (h : ScanReached w S i acc) (h19 : i < 19) (hi : i < maxBytes w)
    (hfits : acc + S.IN[i].toNat % 128 * 2 ^ (7 * i) ≤ 2 ^ bits w - 1)
    (hcont : S.IN[i].getLsbD 7 = true) :
    ScanReached w S (i + 1) (acc + S.IN[i].toNat % 128 * 2 ^ (7 * i)) where
  room := by
    rw [← data_toNat]
    exact add_group_lt (data S.IN[i]) h.room
  continues j hj hlt := by
    rcases Nat.lt_succ_iff_lt_or_eq.1 hlt with hlt | rfl
    · exact h.continues j hj hlt
    · exact hcont
  below j hj hlt := by
    rcases Nat.lt_succ_iff_lt_or_eq.1 hlt with hlt | rfl
    · exact h.below j hj hlt
    · exact h.below_of_fits h19 hi hfits

/-- A scan that runs out of bytes met no terminator, and its last byte, if it got there, did not
overflow (R141). -/
theorem ScanReached.incomplete (h : ScanReached w S i acc) (hend : min S.INLEN.toNat (maxBytes w) ≤ i) :
    ¬OverflowInput w S ∧ NoTerminator w S := by
  refine ⟨fun ⟨hlen, _, hlim⟩ => ?_, fun j hj hlt => h.continues j hj (by omega)⟩
  have hmax := maxBytes_le w
  have hpos : 1 ≤ maxBytes w := by cases w <;> decide
  have hbelow := h.below (maxBytes w - 1) (by omega) (by omega) (by omega)
  exact absurd (hlim (maxBytes w - 1) (by omega) (by omega)) (Nat.not_le_of_lt hbelow)

/-- A scan that meets a sum that does not fit is at the last byte of the scan (R142). -/
theorem ScanReached.overflow (h : ScanReached w S i acc) (h19 : i < 19)
    (hi : i < min S.INLEN.toNat (maxBytes w))
    (hsum : bits w ≤ 7 * i ∨ 2 ^ bits w - 1 < acc + S.IN[i].toNat % 128 * 2 ^ (7 * i)) :
    OverflowInput w S := by
  have hshift := lastShift_lt w
  obtain ⟨hlast, hlim⟩ := (h.exceeds_iff h19 (by omega)).1 (by omega)
  refine ⟨by omega, fun j hj hlt => h.continues j hj (by omega), fun j hj hj_last => ?_⟩
  obtain rfl : i = j := by omega
  exact hlim

/-- A scan that stops at a byte with bit 7 clear met a terminator, and did not overflow. -/
theorem ScanReached.done (h : ScanReached w S i acc) (h19 : i < 19)
    (hi : i < min S.INLEN.toNat (maxBytes w))
    (hfits : acc + S.IN[i].toNat % 128 * 2 ^ (7 * i) ≤ 2 ^ bits w - 1)
    (hstop : S.IN[i].getLsbD 7 = false) :
    ¬OverflowInput w S ∧ ¬NoTerminator w S := by
  refine ⟨fun ⟨_, hcont, hlim⟩ => ?_, fun hnone => ne_true_of_eq_false hstop (hnone i h19 hi)⟩
  by_cases hlast : i + 1 = maxBytes w
  · exact absurd (hlim i h19 hlast) (Nat.not_le_of_lt (h.below_of_fits h19 (by omega) hfits hlast))
  · exact ne_true_of_eq_false hstop (hcont i h19 (by omega))

/-- Every outcome of a scan with its cause: the three causes exclude each other. -/
theorem Scans.cause {r : Except ErrorKind (Nat × Nat)} (hr : Scans w S.IN S.INLEN.toNat i acc r)
    (h : ScanReached w S i acc) :
    (r = .error .overflow ∧ OverflowInput w S) ∨
    (r = .error .incomplete ∧ ¬OverflowInput w S ∧ NoTerminator w S) ∨
    (∃ c v, r = .ok (c, v) ∧ ¬OverflowInput w S ∧ ¬NoTerminator w S) := by
  induction hr with
  | exhausted i acc hend => exact .inr (.inl ⟨rfl, h.incomplete hend⟩)
  | overflow i acc h19 hi hsum => exact .inl ⟨rfl, h.overflow h19 hi hsum⟩
  | done i acc h19 hi _ hfits hstop => exact .inr (.inr ⟨_, _, rfl, h.done h19 hi hfits hstop⟩)
  | more i acc h19 r hi _ hfits hcont _ ih => exact ih (h.succ h19 (by omega) hfits hcont)

end

/-- Settles O18: DecodeCore's answer is an outcome of the scan from index 0, whose cause is known
(`Scans.cause`). -/
theorem decodeErrorCauses : Obligations.DecodeErrorCauses := by
  intro w s p hp
  rw [exec_decOf, operands_of_pending hp, decodeCommit]
  rcases (scans_decodeCore w p.operands).cause .zero with
    ⟨hcore, hover⟩ | ⟨hcore, hover, hnone⟩ | ⟨c, v, hcore, hover, hnone⟩ <;> rw [hcore]
  · exact ⟨fun _ => rfl, fun h => absurd hover h, fun h => absurd hover h⟩
  · exact ⟨fun h => absurd h hover, fun _ _ => rfl, fun _ h => absurd hnone h⟩
  · exact ⟨fun h => absurd h hover, fun _ h => absurd h hnone, fun _ _ => ⟨_, rfl, rfl⟩⟩

/-! Acceptance, and the completion of an illegal command (R144, R164). -/

/-- A write to CMD on an idle block issues the byte written (R34, R164). -/
theorem exec_wr_CMD_idle (d : Data) {s : State} (h : s.BUSY = false) :
    exec (.wr .CMD d) s = .next (s.issue (d.setWidth 8)).driveUnspecified :=
  exec_wr_idle .CMD d s h

/-- Settles O30: the value is issued like any other; outside the map it does not decode, so it completes
with its error alone, which leaves the block idle and the next value is issued. -/
theorem illegalCommandCompletes : Obligations.IllegalCommandCompletes := by
  refine fun s rest => ⟨fun d hidle _ => ?_, fun p hp hillegal hs => ?_⟩
  · exact ⟨_, exec_wr_CMD_idle d hidle, rfl, rfl, _, rfl, rfl⟩
  · have hdecode := commandMapIsTheNineValues.2 p.command hillegal
    exact ⟨_, step_illegal hs hp hdecode, rfl, fun d => ⟨_, _, exec_wr_CMD_idle d rfl, rfl, rfl, rfl⟩⟩

/-! The one code of a completion (R146). -/

section

variable {w : Width} {s t : State} {p : PendingCmd}

/-- A decode reports the code of its scan's outcome (R90, R91). -/
theorem decode_reports (hp : s.PENDING = some p) (ht : exec (decOf w) s = .next t) :
    ∃ r : Except ErrorKind (Nat × Nat), Scans w p.operands.IN p.operands.INLEN.toNat 0 0 r ∧
      t.RESULT = match r with
        | .error e => if e = .overflow then 3 else 2
        | .ok _ => 1 := by
  obtain ⟨r, hscan, hexec⟩ := decodeRunsTheScan w s p hp
  rw [hexec] at ht
  cases ht
  exact ⟨r, hscan, by cases r <;> rfl⟩

/-- An allocating encode reports OK (R112). -/
theorem encode_reports (ht : exec (encOf w) s = .next t) : t.RESULT = 1 := by
  rw [exec_encOf] at ht
  cases ht
  rfl

/-- An in-place encode reports BUFFER_TOO_SMALL exactly when `encLen` of its operand is above CAP (R116),
for the encoding it checks has `encLen` bytes. -/
theorem encodeInto_reports (hp : s.PENDING = some p) (ht : exec (enciOf w) s = .next t) :
    t.RESULT = if p.operands.CAP.toNat < encLen (operandValue w p.operands) then 4 else 1 := by
  rw [exec_enciOf, operands_of_pending hp] at ht
  cases ht
  rw [← (encodeCore_operand_emits w p.operands).length_eq_encLen]
  rcases encodeIntoCommit_cases w p.operands s with ⟨hfits, hcommit⟩ | ⟨hsmall, hcommit⟩ <;> rw [hcommit]
  · exact (if_neg (Nat.not_lt_of_le hfits)).symm
  · exact (if_pos hsmall).symm

end

/-- Settles O31: a value that does not decode completes with its error alone; one that does is a command,
which completes (`failedCommandKeepsResults`) and reports the code of its kind. -/
theorem resultCodePriority : Obligations.ResultCodePriority := by
  intro s p rest hp hs
  cases hd : decode (.command p.command) with
  | error e => exact ⟨_, step_illegal hs hp hd, fun _ => rfl, fun w => ⟨nofun, nofun, nofun⟩⟩
  | ok i =>
    have hp' : (s.setSchedule rest).PENDING = some p := hp
    obtain ⟨t, ht, -⟩ := failedCommandKeepsResults i (s.setSchedule rest) (decode_command_isAccess hd)
    refine ⟨t, (step_complete hs hp hd).trans ht,
      fun hillegal => absurd (mem_legalCommands_of_decode hd) hillegal,
      fun w => ⟨fun hi => ?_, fun hi => ?_, fun hi => ?_⟩⟩ <;> cases hi
    · exact decode_reports hp' ht
    · exact encode_reports ht
    · exact encodeInto_reports hp' ht

/-- Settles O4: either way the step leaves `h_rdata` unspecified and the registers as they are. -/
theorem idleKeepsEveryRegister : Obligations.IdleKeepsEveryRegister := by
  rintro s rest hp (⟨hs, rfl⟩ | ⟨p, hs, hrst, hreq⟩)
  · refine ⟨Config.drawWord s.draws, s.draws + 1, ?_⟩
    rw [step_idle hs hp, ← hs]
    rfl
  · exact ⟨_, _, step_quiet hs hrst hreq⟩

end Sys2Proof.Machine
end

section
/-! The obligations about reset, hazards and the clock (70_reset_and_hazards.md): the reset state, what is
accepted and read around a pending command, its completion, the one stop, and the clocked machine. -/

namespace Sys2Proof.Machine

/-! Reset (R160 to R163). -/

/-- After reset every register, and every reserved address, reads 0. -/
theorem readReg_reset (r : Reg) : State.reset.readReg r = 0 := by
  cases r with
  | IN k => simp [State.readReg, State.reset]
  | OUT k => simp [State.readReg, State.reset]
  | _ => rfl

/-- After a reset edge they read 0 too, for its registers are those of `State.reset`. -/
theorem readReg_resetEdge (r : Reg) (s : State) : (resetEdge s).readReg r = 0 :=
  (readReg_ports r State.reset _ _ _).trans (readReg_reset r)

/-- Settles O1: the step is a reset edge, whatever the cycle presents, and STATUS reads its reset value. -/
theorem resetEdgeGivesResetValues : Obligations.ResetEdgeGivesResetValues := by
  intro s p rest hs hrst
  have hread := exec_rd_defined .STATUS (resetEdge (s.setSchedule rest)) (.inr rfl)
  rw [readReg_resetEdge] at hread
  exact ⟨_, _, _, step_reset hs hrst, rfl, hread⟩

/-- Settles O2, register by register. -/
theorem resetStateReadsZero : Obligations.ResetStateReadsZero :=
  ⟨readReg_reset, rfl, rfl, rfl⟩

/-- Settles O34: the invariant speaks of the registers alone, and they are those a reset edge leaves. -/
theorem resetStateMeetsInvariant : Obligations.ResetStateMeetsInvariant := by
  obtain ⟨hbusy, hlive, hpending, hresult, hcount, hsuccess⟩ := resetEdge_inv State.reset
  exact ⟨hbusy, hlive, hpending, hresult, hcount, hsuccess⟩

/-! Accesses around a pending command (R164, R168, R170). -/

/-- Settles O13: an idle write to CMD issues its byte, and a busy one is the fault. -/
theorem commandAcceptance : Obligations.CommandAcceptance := fun s d =>
  ⟨fun hidle => ⟨_, _, exec_wr_CMD_idle d hidle⟩, exec_wr_busy .CMD d s⟩

/-- With BUSY = 1 and RESULT = NONE, STATUS reads 0x80 (R60). -/
theorem readReg_STATUS_running {s : State} (hbusy : s.BUSY = true) (hresult : s.RESULT = 0) :
    s.readReg .STATUS = 0x80 := by
  simp [State.readReg, State.STATUS, hbusy, hresult]

/-- Settles O14: the reads are those hazard H2 does not touch, so each drives the live register's value,
which by the invariant is the pending command's. -/
theorem definedReadsWhileBusy : Obligations.DefinedReadsWhileBusy := by
  intro s p hs hp
  obtain ⟨hcommand, hoperands⟩ := hs.live p hp
  have hbusy : s.BUSY = true := by rw [hs.busy, hp]; rfl
  have hstatus := readReg_STATUS_running hbusy (hs.pending hbusy)
  have hread : ∀ r, isResultReg r = false → exec (.rd r) s = .next (s.drive (s.readReg r)) :=
    fun r hr => exec_rd_defined r s (.inr hr)
  rw [hcommand, hoperands, ← hstatus]
  exact ⟨hread .STATUS rfl, hread .CMD rfl, hread .INLEN rfl, hread .CAP rfl, hread .VAL_IN rfl,
    fun k => hread (.IN k) rfl, fun a => hread (.reserved a) rfl⟩

/-! Completion (R165, R167). -/

section

/-- An error's code is not NONE (R61). -/
theorem errorCode_pos (e : ErrorKind) : 1 ≤ (errorCode e).toNat := by
  cases e <;> decide

/-- `u` is `s` with one of the codes 1 to 5 in RESULT and the input registers, LASTCMD and the moves to
come as they were: what a completion makes of `s`, before it retires the command. -/
structure Reports (s u : State) : Prop where
  pos      : 1 ≤ u.RESULT.toNat
  le       : u.RESULT.toNat ≤ 5
  inputs   : u.inputs = s.inputs
  lastcmd  : u.LASTCMD = s.LASTCMD
  schedule : u.schedule = s.schedule

/-- A completion that records an error reports its code. -/
theorem fail_reports (e : ErrorKind) (s : State) : Reports s (s.fail e) :=
  ⟨errorCode_pos e, errorCode_le e, rfl, rfl, rfl⟩

/-- A command's meaning reports a code and retires the command. -/
theorem exec_command_reports {i : Instr} (s : State) (hi : isAccess i = false) :
    ∃ u, exec i s = .next u.retire ∧ Reports s u := by
  have hok : 1 ≤ resultOk.toNat ∧ resultOk.toNat ≤ 5 := by decide
  rcases exec_command_cases s hi with ⟨w, c, v, -, -, -, h⟩ | ⟨w, e, -, h⟩ | ⟨w, bs, -, -, -, h⟩ |
    ⟨w, n, -, h⟩
  · exact ⟨_, h, hok.1, hok.2, rfl, rfl, rfl⟩
  · exact ⟨_, h, fail_reports e s⟩
  · exact ⟨_, h, hok.1, hok.2, rfl, rfl, rfl⟩
  · obtain ⟨hpos, hle, -⟩ := fail_reports .bufferTooSmall s
    exact ⟨_, h, hpos, hle, rfl, rfl, rfl⟩

variable {s : State} {q : PendingCmd}

/-- The block's move reports a code and retires the pending command, legal or not (R144, R165). -/
theorem step_complete_reports {rest : List Move} (hs : s.schedule = .complete :: rest)
    (hp : s.PENDING = some q) :
    ∃ u, step s = .next u.retire ∧ Reports (s.setSchedule rest) u := by
  cases hd : decode (.command q.command) with
  | error e => exact ⟨_, step_illegal hs hp hd, fail_reports .illegalCommand _⟩
  | ok i =>
    rw [step_complete hs hp hd]
    exact exec_command_reports _ (decode_command_isAccess hd)

/-- With no move scheduled the block completes the pending command in the same way (R167). -/
theorem step_fair_reports (hs : s.schedule = []) (hp : s.PENDING = some q) :
    ∃ u, step s = .next u.retire ∧ Reports (s.setSchedule []) u := by
  rw [step_fair hs hp]
  exact step_complete_reports (s := s.setSchedule [.complete]) rfl hp

end

/-- Settles O32: the step is the block's move, by the schedule or by fairness, and it reports a code and
retires the command. -/
theorem pendingCommandCompletes : Obligations.PendingCommandCompletes := by
  intro s p rest hp hs
  have hstep : ∃ u, step s = .next u.retire ∧ Reports (s.setSchedule rest) u := by
    rcases hs with hs | ⟨hs, rfl⟩
    · exact step_complete_reports hs hp
    · exact step_fair_reports hs hp
  obtain ⟨u, hu, hpos, hle, hinputs, hlast, hrest⟩ := hstep
  exact ⟨_, hu, rfl, rfl, hpos, hle, hinputs, hlast, hrest⟩

/-! The one stop (R168). -/

section

/-- The next move is a host write outside reset, presented while BUSY = 1 (hazard H1, R168). -/
def BusyWrite (s : State) : Prop :=
  s.BUSY = true ∧ ∃ (p : HostCycle) (rest : List Move), s.schedule = .cycle p :: rest ∧
    p.rst = false ∧ p.req = true ∧ p.we = true

variable {s : State}

/-- A busy write is the fault. -/
theorem BusyWrite.step_eq (h : BusyWrite s) : step s = .fault .hostWriteWhileBusy := by
  obtain ⟨hbusy, p, rest, hs, hrst, hreq, hwe⟩ := h
  rw [step_access hs hrst hreq, if_pos hwe]
  exact exec_wr_busy _ _ _ hbusy

/-- A cycle without a write or a reset completes, and leaves what is pending and BUSY as they are. -/
theorem step_harmless {p : HostCycle} {rest : List Move} (hs : s.schedule = .cycle p :: rest)
    (hrst : p.rst = false) (hread : p.req = true → p.we = false) :
    ∃ t, step s = .next t ∧ t.PENDING = s.PENDING ∧ t.BUSY = s.BUSY := by
  cases hreq : p.req with
  | false => exact ⟨_, step_quiet hs hrst hreq, rfl, rfl⟩
  | true =>
    rw [step_access hs hrst hreq, hread hreq]
    obtain ⟨v, n, h⟩ := exec_rd_frame (decodeAddr p.addr) (s.setSchedule rest)
    exact ⟨_, h, rfl, rfl⟩

/-- A host cycle that is no busy write completes. -/
theorem step_cycle_next {p : HostCycle} {rest : List Move} (hs : s.schedule = .cycle p :: rest)
    (h : ¬BusyWrite s) : ∃ t, step s = .next t := by
  cases hrst : p.rst with
  | true => exact ⟨_, step_reset hs hrst⟩
  | false =>
    by_cases hread : p.req = true → p.we = false
    · obtain ⟨t, ht, -⟩ := step_harmless hs hrst hread
      exact ⟨t, ht⟩
    · obtain ⟨hreq, hwe⟩ : p.req = true ∧ p.we = true := by simpa using hread
      have hidle : s.BUSY = false :=
        eq_false_of_ne_true fun hbusy => h ⟨hbusy, p, rest, hs, hrst, hreq, hwe⟩
      rw [step_access hs hrst hreq, if_pos hwe]
      exact ⟨_, exec_wr_idle _ _ _ hidle⟩

/-- Every step but a busy write has a next state. -/
theorem step_next_of_not_busyWrite (h : ¬BusyWrite s) : ∃ t, step s = .next t := by
  cases hs : s.schedule with
  | nil =>
    cases hp : s.PENDING with
    | none => exact ⟨_, step_idle hs hp⟩
    | some q =>
      obtain ⟨u, hu, -⟩ := step_fair_reports hs hp
      exact ⟨_, hu⟩
  | cons m rest =>
    cases m with
    | cycle p => exact step_cycle_next hs h
    | complete =>
      cases hp : s.PENDING with
      | none => exact ⟨_, step_stutter hs hp⟩
      | some q =>
        obtain ⟨u, hu, -⟩ := step_complete_reports hs hp
        exact ⟨_, hu⟩

end

/-- Settles O33: a step is a busy write, which is that fault, or it has a next state. A write presented
with `rst` = 1 is no busy write, as log entry 7 reads R163. -/
theorem onlyBusyWritesStop : Obligations.OnlyBusyWritesStop := by
  intro s
  by_cases h : BusyWrite s
  · rw [h.step_eq]
    refine ⟨nofun, fun f => ⟨fun hf => ?_, fun ⟨hf, _⟩ => by rw [hf]⟩⟩
    cases hf
    exact ⟨rfl, h⟩
  · obtain ⟨t, ht⟩ := step_next_of_not_busyWrite h
    rw [ht]
    exact ⟨nofun, fun f => ⟨nofun, fun ⟨_, hbusy⟩ => absurd hbusy h⟩⟩

/-! The clocked machine, forwards: each part of an edge by what the untimed step answers (R165). -/

section

variable {lat : Byte → Operands → Nat}

/-- The edge goes on from what the host's part answers. -/
theorem clockEdge_of_step {p : HostCycle} {t : TimedState} {s : State}
    (h : step (t.core.setSchedule [.cycle p]) = .next s) :
    clockEdge lat p t = completeIfDue lat (if t.core.PENDING.isSome then t.elapsed + 1 else 0) s := by
  rw [clockEdge, h]

/-- The edges go on from what the first one answers. -/
theorem clockEdges_cons_of_edge {p : HostCycle} {ps : List HostCycle} {t u : TimedState}
    (h : clockEdge lat p t = .next u) : clockEdges lat (p :: ps) t = clockEdges lat ps u := by
  rw [clockEdges, h]

/-- With nothing pending no completion is due. -/
theorem completeIfDue_idle (n : Nat) {s : State} (hp : s.PENDING = none) :
    completeIfDue lat n s = .next { core := s, elapsed := 0 } := by
  rw [completeIfDue, hp]

/-- Where the block stands `n` edges after it accepted `q`: running while `n` is below the latency, idle
from then on. -/
def StandsAfter (lat : Byte → Operands → Nat) (q : PendingCmd) (n : Nat) (t : TimedState) : Prop :=
  (n < lat q.command q.operands ∧ t.core.PENDING = some q ∧ t.core.BUSY = true ∧ t.elapsed = n) ∨
  (lat q.command q.operands ≤ n ∧ t.core.PENDING = none ∧ t.core.BUSY = false)

variable {q : PendingCmd} {n : Nat} {t : TimedState}

/-- The block stands pending exactly before the latency. -/
theorem StandsAfter.isSome_iff (h : StandsAfter lat q n t) :
    t.core.PENDING.isSome = true ↔ n < lat q.command q.operands := by
  rcases h with ⟨hlt, hp, -⟩ | ⟨hle, hp, -⟩ <;> simp [hp] <;> omega

/-- The block stands busy exactly before the latency. -/
theorem StandsAfter.busy_iff (h : StandsAfter lat q n t) :
    t.core.BUSY = true ↔ n < lat q.command q.operands := by
  rcases h with ⟨hlt, -, hb, -⟩ | ⟨hle, -, hb⟩ <;> simp [hb] <;> omega

/-- The block's part of the `n`-th edge: it completes the command if the latency is up, else counts on. -/
theorem completeIfDue_stands {s : State} (hp : s.PENDING = some q) (hb : s.BUSY = true) :
    ∃ u, completeIfDue lat n s = .next u ∧ StandsAfter lat q n u := by
  simp only [completeIfDue, hp]
  by_cases hdue : lat q.command q.operands ≤ n
  · obtain ⟨u, hu, -⟩ := step_complete_reports (s := s.setSchedule [.complete]) rfl hp
    rw [if_pos hdue, hu]
    exact ⟨_, rfl, .inr ⟨hdue, rfl, rfl⟩⟩
  · rw [if_neg hdue]
    exact ⟨_, rfl, .inl ⟨Nat.lt_of_not_le hdue, hp, hb, rfl⟩⟩

/-- One more edge without a write or a reset. -/
theorem clockEdge_harmless (h : StandsAfter lat q n t) {p : HostCycle} (hrst : p.rst = false)
    (hread : p.req = true → p.we = false) :
    ∃ u, clockEdge lat p t = .next u ∧ StandsAfter lat q (n + 1) u := by
  obtain ⟨s, hstep, hpending, hbusy⟩ :=
    step_harmless (s := t.core.setSchedule [.cycle p]) rfl hrst hread
  rw [clockEdge_of_step hstep]
  rcases h with ⟨-, hp, hb, rfl⟩ | ⟨hle, hp, hb⟩
  · rw [hp]
    exact completeIfDue_stands (hpending.trans hp) (hbusy.trans hb)
  · rw [completeIfDue_idle _ (hpending.trans hp)]
    exact ⟨_, rfl, .inr ⟨Nat.le_succ_of_le hle, hpending.trans hp, hbusy.trans hb⟩⟩

/-- Any number of further edges without a write or a reset. -/
theorem clockEdges_harmless {cs : List HostCycle} (h : StandsAfter lat q n t)
    (hcs : ∀ c ∈ cs, c.rst = false ∧ (c.req = true → c.we = false)) :
    ∃ u, clockEdges lat cs t = .next u ∧ StandsAfter lat q (n + cs.length) u := by
  induction cs generalizing n t with
  | nil => exact ⟨t, rfl, h⟩
  | cons c cs ih =>
    obtain ⟨⟨hrst, hread⟩, hcs⟩ := List.forall_mem_cons.1 hcs
    obtain ⟨v, hedge, hv⟩ := clockEdge_harmless h hrst hread
    obtain ⟨u, hu, hstands⟩ := ih hv hcs
    rw [clockEdges_cons_of_edge hedge, List.length_cons, Nat.add_comm cs.length, ← Nat.add_assoc]
    exact ⟨u, hu, hstands⟩

/-- The edge of a write to CMD (address 0x16) on an idle block accepts its byte; with latency 0 the command
completes here (R164, R165). -/
theorem clockEdge_accept (d : Data) (hb : t.core.BUSY = false) (hp : t.core.PENDING = none) :
    ∃ u, clockEdge lat { rst := false, req := true, we := true, addr := 0x16, wdata := d } t = .next u ∧
      StandsAfter lat { command := d.setWidth 8, operands := t.core.inputs } 0 u := by
  have hstep := (step_access (s := t.core.setSchedule [.cycle ⟨false, true, true, 0x16, d⟩])
    rfl rfl rfl).trans (exec_wr_CMD_idle d hb)
  rw [clockEdge_of_step hstep, hp]
  exact completeIfDue_stands rfl rfl

end

/-- Settles O42: the accepting edge leaves the block standing 0 edges after its acceptance, and each
further edge one more. -/
theorem commandCompletesAtItsLatency : Obligations.CommandCompletesAtItsLatency := by
  intro lat t d cs hb hp hcs
  obtain ⟨v, hedge, hv⟩ := clockEdge_accept d hb hp
  obtain ⟨u, hu, hstands⟩ := clockEdges_harmless hv hcs
  rw [Nat.zero_add] at hstands
  exact ⟨u, (clockEdges_cons_of_edge hedge).trans hu, hstands.isSome_iff, hstands.busy_iff⟩

/-! The clocked machine, backwards: an edge that answers is one or two moves of the untimed machine (R167). -/

section

/-- The untimed machine takes the moves `ms` from `s` to `t`, whatever moves follow. -/
def Takes (ms : List Move) (s t : State) : Prop :=
  ∀ (k : Nat) (rest : List Move),
    Host.Core.run Sys2Proof.core (ms.length + k) (s.setSchedule (ms ++ rest)) =
      Host.Core.run Sys2Proof.core k (t.setSchedule rest)

/-- Taking no move is staying. -/
theorem Takes.nil (s : State) : Takes [] s s := fun k rest => by
  rw [List.length_nil, Nat.zero_add, List.nil_append]

/-- A move that the step takes alone is taken first, and the others after it. -/
theorem Takes.cons {m : Move} {ms : List Move} {s t u : State}
    (hstep : step (s.setSchedule [m]) = .next t) (h : Takes ms t u) : Takes (m :: ms) s u := by
  intro k rest
  rw [List.length_cons, Nat.add_right_comm, List.cons_append, run_succ _ (step_cons _ hstep)]
  exact h k rest

variable {lat : Byte → Operands → Nat} {t u : TimedState}

/-- The block's part of an edge, when it answers, changed nothing or was a completion. -/
theorem completeIfDue_next {n : Nat} {s : State} (h : completeIfDue lat n s = .next u) :
    u.core = s ∨ step (s.setSchedule [.complete]) = .next u.core := by
  rw [completeIfDue] at h
  split at h
  · cases h; exact .inl rfl
  · split at h
    · split at h
      · next hstep => cases h; exact .inr hstep
      · cases h
      · cases h
    · cases h; exact .inl rfl

/-- An edge that answers did so after the host's part answered. -/
theorem clockEdge_next {p : HostCycle} (h : clockEdge lat p t = .next u) :
    ∃ s n, step (t.core.setSchedule [.cycle p]) = .next s ∧ completeIfDue lat n s = .next u := by
  rw [clockEdge] at h
  split at h
  · next s hstep => exact ⟨s, _, hstep, h⟩
  · cases h
  · cases h

/-- Edges that answer do so one after another. -/
theorem clockEdges_cons_next {p : HostCycle} {ps : List HostCycle}
    (h : clockEdges lat (p :: ps) t = .next u) :
    ∃ v, clockEdge lat p t = .next v ∧ clockEdges lat ps v = .next u := by
  rw [clockEdges] at h
  split at h
  · next v hedge => exact ⟨v, hedge, h⟩
  · cases h
  · cases h

/-- The untimed machine takes a run of edges: each host cycle as its move, followed by the block's where a
completion was due. -/
theorem clockEdges_takes {cs : List HostCycle} (h : clockEdges lat cs t = .next u) :
    ∃ ms : List Move, ms.filter (fun m => m != .complete) = cs.map .cycle ∧ Takes ms t.core u.core := by
  induction cs generalizing t with
  | nil => cases h; exact ⟨[], rfl, .nil _⟩
  | cons p ps ih =>
    obtain ⟨v, hedge, hrest⟩ := clockEdges_cons_next h
    obtain ⟨s, n, hhost, hblock⟩ := clockEdge_next hedge
    obtain ⟨ms, hfilter, htakes⟩ := ih hrest
    rcases completeIfDue_next hblock with hv | hcomplete
    · rw [hv] at htakes
      exact ⟨.cycle p :: ms, congrArg (Move.cycle p :: ·) hfilter, .cons hhost htakes⟩
    · exact ⟨.cycle p :: .complete :: ms, congrArg (Move.cycle p :: ·) hfilter,
        .cons hhost (.cons hcomplete htakes)⟩

end

/-- Settles O43: the moves of the edges, with nothing scheduled after them. -/
theorem timedRunsAreUntimedRuns : Obligations.TimedRunsAreUntimedRuns := by
  intro lat cs t u h hend
  obtain ⟨ms, hfilter, htakes⟩ := clockEdges_takes h
  have hrun := htakes 0 []
  rw [Nat.add_zero, List.append_nil, setSchedule_self hend] at hrun
  exact ⟨ms, hfilter, hrun⟩

end Sys2Proof.Machine
end
